-- ==== Sys2Proof/Word.lean ====
section
/-! DEFINITION. The word types of the block (spec/00_scope.md R7, R8): bytes, 32-bit words, 64-bit registers,
and the 64-byte buffers of spec/10_state.md R30. -/

namespace Sys2Proof

/-- `u8` (R7, R8). -/
abbrev Byte := BitVec 8

/-- `u32` (R8). -/
abbrev Word := BitVec 32

/-- `u64` (R8). -/
abbrev DWord := BitVec 64

/-- A 64-byte buffer, `IN` or `OUT` (R30, `BUF_BYTES` of R6). -/
abbrev Buffer := Vector Byte 64

end Sys2Proof
end

