-- ==== Sys2Proof/Syntax.lean ====
section
/-! DEFINITION. The command set: one constructor per row of spec/opcode_table.json (spec/30_encoding.md R73). -/

namespace Sys2Proof

/-- A command. `len` and `alen` are the fields `LEN` and `ALEN` of the command word, zero-extended (R71); `TS` and `CA`
act only as part of the pattern that selects a row (R71), so they are no operands. -/
inductive Instr where
  /-- SEED (R104). -/
  | seed
  /-- NEXT_U32 (R105). -/
  | nextU32
  /-- NEXT_F64 (R107). -/
  | nextF64
  /-- INT_INCL (R126). -/
  | intIncl
  /-- INT_BIG (R127). -/
  | intBig
  /-- DRAW_BYTES (R128). -/
  | drawBytes (len : Nat)
  /-- UUID4_GEN (R143). -/
  | uuid4Gen
  /-- UUID4_ENC (R144). -/
  | uuid4Enc
  /-- ULID_GEN (R149). -/
  | ulidGen
  /-- ULID_GEN.TS (R149). -/
  | ulidGenTs
  /-- ULID_ENC (R150). -/
  | ulidEnc
  /-- SUUID_GEN (R153). -/
  | suuidGen
  /-- B58_ENC (R154). -/
  | b58Enc (len : Nat)
  /-- NANOID (R157). -/
  | nanoid (len : Nat)
  /-- NANOID.CA (R157). -/
  | nanoidCa (len alen : Nat)
  /-- OBJID_GEN (R159). -/
  | objidGen
  /-- OBJID_GEN.TS (R159). -/
  | objidGenTs
  /-- OBJID_ENC (R160). -/
  | objidEnc
  /-- UPC_CHK (R184). -/
  | upcChk
  /-- EAN_CHK (R185). -/
  | eanChk
  /-- UPC_GEN (R186). -/
  | upcGen
  /-- EAN_GEN (R187). -/
  | eanGen
  deriving DecidableEq, Repr

end Sys2Proof
end

