-- ==== Sys2Proof/WellFormed.lean ====
section
/-! DEFINITION. Which commands a command word can hold: `LEN` and `ALEN` are 8-bit fields (spec/30_encoding.md R70). -/

namespace Sys2Proof

/-- The operand fields fit their 8 bits (R70). The commands' own range checks (spec/60_exceptions.md R203) are
semantic and are no part of this. -/
def Instr.wellFormed : Instr → Bool
  | .drawBytes len => decide (len < 256)
  | .b58Enc len => decide (len < 256)
  | .nanoid len => decide (len < 256)
  | .nanoidCa len alen => decide (len < 256) && decide (alen < 256)
  | .seed | .nextU32 | .nextF64 | .intIncl | .intBig | .uuid4Gen | .uuid4Enc | .ulidGen | .ulidGenTs | .ulidEnc
  | .suuidGen | .objidGen | .objidGenTs | .objidEnc | .upcChk | .eanChk | .upcGen | .eanGen => true

/-- `i` is a command some word holds. -/
abbrev WellFormed (i : Instr) : Prop := i.wellFormed = true

end Sys2Proof
end

