-- ==== Sys2Proof/Decode.lean ====
section
/-! DEFINITION. Decoding and encoding command words (spec/30_encoding.md R70 to R76) and the opcode map as the table the
spec gives (R73). -/

namespace Sys2Proof

/-- The fields of a command word (R70). -/
structure Fields where
  rsv : BitVec 6
  ca : BitVec 1
  ts : BitVec 1
  alen : BitVec 8
  len : BitVec 8
  op : BitVec 8
  deriving DecidableEq, Repr

/-- Why a word is illegal (spec/60_exceptions.md R202). All of them raise the one code `ILLEGAL_COMMAND`. -/
inductive Reject where
  /-- Not four bytes: no other length exists (R70). No command register write can do this. -/
  | notOneWord
  /-- The `RSV` bits are not all 0. -/
  | reservedBits
  /-- `OP` is no row's (R75). -/
  | reservedOpcode (op : Nat)
  /-- A field the row fixes holds another value (R74). -/
  | fixedField
  deriving DecidableEq, Repr

/-- R70: where each field lies in the word. -/
def fieldsOf (w : Word) : Fields :=
  { op := w.extractLsb' 0 8
    len := w.extractLsb' 8 8
    alen := w.extractLsb' 16 8
    ts := w.extractLsb' 24 1
    ca := w.extractLsb' 25 1
    rsv := w.extractLsb' 26 6 }

/-- R70: the word that holds the fields. -/
def wordOf (f : Fields) : Word :=
  f.rsv ++ f.ca ++ f.ts ++ f.alen ++ f.len ++ f.op

/-- A row with no free field and `TS = CA = 0`. -/
def decodePlain (f : Fields) (i : Instr) : Except Reject Instr :=
  if f.len = 0 ∧ f.alen = 0 ∧ f.ts = 0 ∧ f.ca = 0 then .ok i else .error .fixedField

/-- A row whose `LEN` is free and whose other fields are 0. -/
def decodeLen (f : Fields) (i : Nat → Instr) : Except Reject Instr :=
  if f.alen = 0 ∧ f.ts = 0 ∧ f.ca = 0 then .ok (i f.len.toNat) else .error .fixedField

/-- An opcode with a form for `TS = 0` and one for `TS = 1`, no other field free. -/
def decodeTs (f : Fields) (i0 i1 : Instr) : Except Reject Instr :=
  if f.len = 0 ∧ f.alen = 0 ∧ f.ca = 0 then .ok (if f.ts = 0 then i0 else i1) else .error .fixedField

/-- The nanoid opcode: `CA = 1` frees `ALEN` (R73). -/
def decodeNanoid (f : Fields) : Except Reject Instr :=
  if f.ts ≠ 0 then .error .fixedField
  else if f.ca ≠ 0 then .ok (.nanoidCa f.len.toNat f.alen.toNat)
  else if f.alen = 0 then .ok (.nanoid f.len.toNat)
  else .error .fixedField

/-- The opcode map (R73), the fixed fields (R74) and the reserved space (R75). -/
def decodeFields (f : Fields) : Except Reject Instr :=
  if f.rsv ≠ 0 then .error .reservedBits
  else
    match f.op.toNat with
    | 0x01 => decodePlain f .seed
    | 0x02 => decodePlain f .nextU32
    | 0x03 => decodePlain f .nextF64
    | 0x04 => decodePlain f .intIncl
    | 0x05 => decodePlain f .intBig
    | 0x06 => decodeLen f .drawBytes
    | 0x10 => decodePlain f .uuid4Gen
    | 0x11 => decodePlain f .uuid4Enc
    | 0x12 => decodeTs f .ulidGen .ulidGenTs
    | 0x13 => decodePlain f .ulidEnc
    | 0x14 => decodePlain f .suuidGen
    | 0x15 => decodeLen f .b58Enc
    | 0x16 => decodeNanoid f
    | 0x17 => decodeTs f .objidGen .objidGenTs
    | 0x18 => decodePlain f .objidEnc
    | 0x20 => decodePlain f .upcChk
    | 0x21 => decodePlain f .eanChk
    | 0x22 => decodePlain f .upcGen
    | 0x23 => decodePlain f .eanGen
    | op => .error (.reservedOpcode op)

/-- The command a 32-bit word holds, or why it holds none (R72). It depends on the word alone. -/
def decodeWord (w : Word) : Except Reject Instr :=
  decodeFields (fieldsOf w)

/-- A word from its four bytes, lowest address first: byte lanes are little-endian (spec/20_memory.md R53). -/
def wordOfBytes (b0 b1 b2 b3 : Byte) : Word := b3 ++ b2 ++ b1 ++ b0

/-- The four bytes of a word, lowest address first (R53). -/
def bytesOfWord (w : Word) : List Byte :=
  [w.extractLsb' 0 8, w.extractLsb' 8 8, w.extractLsb' 16 8, w.extractLsb' 24 8]

/-- Decoding from bytes: every command is exactly 32 bits (R70, R76). -/
def decode : List Byte → Except Reject Instr
  | [b0, b1, b2, b3] => decodeWord (wordOfBytes b0 b1 b2 b3)
  | _ => .error .notOneWord

/-- The fields of a command whose row fixes all but the opcode to 0. -/
def Fields.plain (op : BitVec 8) : Fields := { op, len := 0, alen := 0, ts := 0, ca := 0, rsv := 0 }

/-- The fields each command's row gives it (R73), with the free fields filled in. -/
def Instr.fields : Instr → Fields
  | .seed => .plain 0x01
  | .nextU32 => .plain 0x02
  | .nextF64 => .plain 0x03
  | .intIncl => .plain 0x04
  | .intBig => .plain 0x05
  | .drawBytes len => { Fields.plain 0x06 with len := BitVec.ofNat 8 len }
  | .uuid4Gen => .plain 0x10
  | .uuid4Enc => .plain 0x11
  | .ulidGen => .plain 0x12
  | .ulidGenTs => { Fields.plain 0x12 with ts := 1 }
  | .ulidEnc => .plain 0x13
  | .suuidGen => .plain 0x14
  | .b58Enc len => { Fields.plain 0x15 with len := BitVec.ofNat 8 len }
  | .nanoid len => { Fields.plain 0x16 with len := BitVec.ofNat 8 len }
  | .nanoidCa len alen =>
    { Fields.plain 0x16 with len := BitVec.ofNat 8 len, alen := BitVec.ofNat 8 alen, ca := 1 }
  | .objidGen => .plain 0x17
  | .objidGenTs => { Fields.plain 0x17 with ts := 1 }
  | .objidEnc => .plain 0x18
  | .upcChk => .plain 0x20
  | .eanChk => .plain 0x21
  | .upcGen => .plain 0x22
  | .eanGen => .plain 0x23

/-- The word of a well-formed command (R73, R79). -/
def encode (i : Instr) : Word := wordOf i.fields

/-- A row of the opcode map (R73): a word `w` matches it when `w & mask = match`. -/
structure Row where
  mnemonic : String
  pattern : Word
  mask : Word
  deriving DecidableEq, Repr

/-- `(w & r.mask) = r.match` (R72). -/
def Row.accepts (r : Row) (w : Word) : Bool := (w &&& r.mask) == r.pattern

/-- The rows of the engine and the sampler (R73). -/
def engineRows : List Row :=
  [⟨"SEED", 0x00000001, 0xFFFFFFFF⟩, ⟨"NEXT_U32", 0x00000002, 0xFFFFFFFF⟩, ⟨"NEXT_F64", 0x00000003, 0xFFFFFFFF⟩,
   ⟨"INT_INCL", 0x00000004, 0xFFFFFFFF⟩, ⟨"INT_BIG", 0x00000005, 0xFFFFFFFF⟩, ⟨"DRAW_BYTES", 0x00000006, 0xFFFF00FF⟩]

/-- The rows of the identifier encoders (R73). -/
def encoderRows : List Row :=
  [⟨"UUID4_GEN", 0x00000010, 0xFFFFFFFF⟩, ⟨"UUID4_ENC", 0x00000011, 0xFFFFFFFF⟩,
   ⟨"ULID_GEN", 0x00000012, 0xFFFFFFFF⟩, ⟨"ULID_GEN.TS", 0x01000012, 0xFFFFFFFF⟩,
   ⟨"ULID_ENC", 0x00000013, 0xFFFFFFFF⟩, ⟨"SUUID_GEN", 0x00000014, 0xFFFFFFFF⟩,
   ⟨"B58_ENC", 0x00000015, 0xFFFF00FF⟩, ⟨"NANOID", 0x00000016, 0xFFFF00FF⟩,
   ⟨"NANOID.CA", 0x02000016, 0xFF0000FF⟩, ⟨"OBJID_GEN", 0x00000017, 0xFFFFFFFF⟩,
   ⟨"OBJID_GEN.TS", 0x01000017, 0xFFFFFFFF⟩, ⟨"OBJID_ENC", 0x00000018, 0xFFFFFFFF⟩]

/-- The rows of the checksums (R73). -/
def checksumRows : List Row :=
  [⟨"UPC_CHK", 0x00000020, 0xFFFFFFFF⟩, ⟨"EAN_CHK", 0x00000021, 0xFFFFFFFF⟩,
   ⟨"UPC_GEN", 0x00000022, 0xFFFFFFFF⟩, ⟨"EAN_GEN", 0x00000023, 0xFFFFFFFF⟩]

/-- The opcode map (R73): 22 rows. -/
def rows : List Row := engineRows ++ encoderRows ++ checksumRows

/-- The mnemonic of a command (R73). -/
def Instr.mnemonic : Instr → String
  | .seed => "SEED"
  | .nextU32 => "NEXT_U32"
  | .nextF64 => "NEXT_F64"
  | .intIncl => "INT_INCL"
  | .intBig => "INT_BIG"
  | .drawBytes _ => "DRAW_BYTES"
  | .uuid4Gen => "UUID4_GEN"
  | .uuid4Enc => "UUID4_ENC"
  | .ulidGen => "ULID_GEN"
  | .ulidGenTs => "ULID_GEN.TS"
  | .ulidEnc => "ULID_ENC"
  | .suuidGen => "SUUID_GEN"
  | .b58Enc _ => "B58_ENC"
  | .nanoid _ => "NANOID"
  | .nanoidCa _ _ => "NANOID.CA"
  | .objidGen => "OBJID_GEN"
  | .objidGenTs => "OBJID_GEN.TS"
  | .objidEnc => "OBJID_ENC"
  | .upcChk => "UPC_CHK"
  | .eanChk => "EAN_CHK"
  | .upcGen => "UPC_GEN"
  | .eanGen => "EAN_GEN"

/-- The command the decoder reads from a word given as a number, bit 0 the least significant. Every row has 32 bits;
bits from `nbits` up are 0. -/
def decodeTableWord (nbits w : Nat) : Option Instr :=
  if 32 < nbits then none
  else (decode (bytesOfWord (BitVec.ofNat 32 (w % 2 ^ nbits)))).toOption

end Sys2Proof
end

