-- ==== Sys2Proof/Config.lean ====
section
/-! DEFINITION. The block's parameters (spec/00_scope.md R6, spec/10_state.md R42) and its one free value.
`DEFAULT_SEED` and `BASE` are OPEN in the spec: they are constants with no body, so nothing can be proved of their
values. `MIXER_VARIANT` is a parameter with two stated values; the machine carries the parameters in
`Params`, which no step changes (log 1, 2, 3). -/

namespace Sys2Proof

/-- `MIXER_VARIANT` (R6): which reading of the mixer the engine runs (spec/40_engine.md R101, R102). -/
inductive MixerVariant where
  /-- `DOC`, the default: the source's literal reading (R101). -/
  | doc
  /-- `MULBERRY32`: the published mulberry32 output function (R102). -/
  | mulberry32
  deriving DecidableEq, Repr

/-- The parameters a step takes (spec/10_state.md R42). `BASE` is not among them: every access is held relative to it
(log 3). -/
structure Params where
  /-- `MIXER_VARIANT`. -/
  variant : MixerVariant
  /-- `DEFAULT_SEED`, the value reset gives `STATE` (spec/70_reset_and_hazards.md R230). -/
  defaultSeed : Word
  deriving DecidableEq, Repr

/-- `DEFAULT_SEED` (R6, R230): OPEN. "A model takes `DEFAULT_SEED` as an argument, and must not assume 0 or any other
value for it." No body (log 2). Safe. -/
opaque Config.defaultSeed : Word

/-- `BASE` (R6, spec/20_memory.md R50): the platform address of the register window, OPEN. No body (log 3). Safe. -/
opaque Config.base : Nat

/-- FREE VALUE: what the platform returns for the `n`-th read that does not reach the block (spec/20_memory.md R51:
"The platform decides what they do"). No body (log 6). Safe. -/
opaque Config.platformData : Nat → Word

end Sys2Proof
end

