-- ==== Sys2Proof/Machine/State.lean ====
section
/-! DEFINITION. The state of the block (spec/10_state.md R30: "the block's complete architectural state"), the parameters
it runs with (R42), and the host side the model keeps beside it (log 4 to 7); why a step can stop; reset. -/

namespace Sys2Proof.Machine

/-- `STATUS` (R37). Its reserved bits read 0, so they are no field: `Status.word` is what the host reads. -/
structure Status where
  /-- Bit 0: 1 while a command runs; the atomic model always reads 0 (log 8). -/
  busy : Bool
  /-- Bit 1: the last command failed. -/
  err : Bool
  /-- Bit 2, sticky: some command has failed since reset (R207). -/
  everErr : Bool
  /-- Bits 15:8: the error code of the last command, 0 on success (spec/60_exceptions.md R200). -/
  code : Byte
  deriving DecidableEq, Repr

/-- The error codes a command can fail with (spec/60_exceptions.md R200). -/
inductive ErrorCode where
  | invalidRange
  | illegalCommand
  | badLength
  | badDigit
  deriving DecidableEq, Repr

/-- A host access. `offset` is its address relative to `BASE` (spec/20_memory.md R50; log 3), `size` its width in bytes. -/
inductive Access where
  | read (offset : Int) (size : Nat)
  | write (offset : Int) (size : Nat) (v : Word)
  deriving DecidableEq, Repr

/-- What the world outside the block does next (log 4). -/
inductive HostEvent where
  /-- Host number `host` makes an access (spec/20_memory.md R58). -/
  | access (host : Nat) (a : Access)
  /-- Host number `host` ends its exclusive use of the block (spec/20_memory.md R61; log 7). -/
  | release (host : Nat)
  /-- The block is reset (spec/70_reset_and_hazards.md R230; log 12). -/
  | reset
  deriving DecidableEq, Repr

/-- The state. `rng` to `status` are the registers of R30, `params` the parameters of R42, the rest the model's own
host side. -/
structure State where
  /-- `STATE`: the engine's 32-bit word (R31). -/
  rng : Word
  /-- `OPA` (R32). -/
  opa : DWord
  /-- `OPB` (R32). -/
  opb : DWord
  /-- `RES` (R33). -/
  res : DWord
  /-- `OUTLEN` (R34). -/
  outlen : Byte
  /-- `OUT[0..63]` (R34). -/
  out : Buffer
  /-- `IN[0..63]` (R35). -/
  inp : Buffer
  /-- `CMD` (R36). -/
  cmd : Word
  /-- `STATUS` (R37). -/
  status : Status
  /-- `MIXER_VARIANT` and `DEFAULT_SEED` (R42). No step changes them (log 1, 2). -/
  params : Params
  /-- MODEL: the host events not yet taken, the next one first (log 4). -/
  pending : List HostEvent
  /-- MODEL: what the host's reads have returned, newest first (log 5). -/
  readLog : List Word
  /-- MODEL: the host that has exclusive use of the block (log 7). -/
  owner : Option Nat
  /-- MODEL: how many free values of the platform have been used (log 6). -/
  freeCount : Nat
  deriving DecidableEq, Repr

/-- Why the machine stops with a fault: never. An error of a command is a status code, not a trap (spec/60_exceptions.md
R200, R208), and no other rule of the spec stops the block. -/
inductive Fault where
  deriving DecidableEq, Repr

/-- Why a step has no next state. Each is safe: no claim can be proved of a run that meets one. -/
inductive Refusal where
  /-- Raised by an arm of `exec` whose command has no meaning yet (none is left). Safe. -/
  | notModelled (mnemonic : String)
  /-- Raised by `hostAccess`: an access to the window that is not an aligned 32-bit word (spec/20_memory.md R52,
  spec/60_exceptions.md R211 item 1). Safe. -/
  | notAlignedWord
  /-- Raised by `hostAccess`: an access other than a `STATUS` read while `BUSY` = 1 (spec/70_reset_and_hazards.md R233,
  spec/60_exceptions.md R211 item 2). Safe. -/
  | accessWhileBusy
  /-- Raised by `hostAccess`: an access by a host while another has exclusive use (spec/20_memory.md R61,
  spec/60_exceptions.md R211 item 3). Safe. -/
  | unsynchronisedHosts
  deriving DecidableEq, Repr

/-- `STATUS` after reset: every field 0 (R37). -/
def Status.reset : Status := { busy := false, err := false, everErr := false, code := 0 }

/-- The block right after reset, for any parameters (spec/70_reset_and_hazards.md R230): `STATE` is `DEFAULT_SEED`, all
else is 0. The model's own host side is empty (log 18). -/
def State.resetWith (p : Params) : State :=
  { rng := p.defaultSeed
    opa := 0
    opb := 0
    res := 0
    outlen := 0
    out := Vector.replicate 64 0
    inp := Vector.replicate 64 0
    cmd := 0
    status := Status.reset
    params := p
    pending := []
    readLog := []
    owner := none
    freeCount := 0 }

/-- The machine right after reset: `MIXER_VARIANT` is `DOC`, the default (R6), and `DEFAULT_SEED` is the open constant
(log 1, 2). -/
def State.reset : State :=
  State.resetWith { variant := .doc, defaultSeed := Config.defaultSeed }

end Sys2Proof.Machine
end

