-- ==== Sys2Proof/Machine/Flags.lean ====
section
/-! DEFINITION. The fields of `STATUS` (spec/10_state.md R37): what success and failure write (spec/30_encoding.md R78,
spec/60_exceptions.md R206) and the word the host reads. There are no condition codes (spec/10_state.md R39). -/

namespace Sys2Proof.Machine

/-- The number of an error code (spec/60_exceptions.md R200). -/
def ErrorCode.bits : ErrorCode → Byte
  | .invalidRange => 1
  | .illegalCommand => 2
  | .badLength => 3
  | .badDigit => 4

/-- What `Complete` and `CompleteNoResult` write: `ERR` and `CODE` cleared, `EVERERR` unchanged (R78). -/
def Status.succeed (st : Status) : Status :=
  { st with err := false, code := 0 }

/-- What `Fail(code)` writes (R206). -/
def Status.failWith (st : Status) (c : ErrorCode) : Status :=
  { st with err := true, code := c.bits, everErr := true }

/-- `STATUS` as the host reads it (R37); reserved bits read 0. -/
def Status.word (st : Status) : Word :=
  0#16 ++ st.code ++ 0#5 ++ BitVec.ofBool st.everErr ++ BitVec.ofBool st.err ++ BitVec.ofBool st.busy

end Sys2Proof.Machine
end

