-- ==== Sys2Proof/Machine/Operands.lean ====
section
/-! DEFINITION. How a command reads its operands (spec/30_encoding.md R71): `OPA` and `OPB` as `i64`, the low word of
`OPA`, the clamped timestamp (spec/42_encoders.md R146), bytes of `IN`; and the bytes of a buffer. -/

namespace Sys2Proof.Machine

/-- Byte `i` of a buffer. The spec names bytes 0..63 only (R34, R35); beyond them this is 0 and no rule reads it. -/
def bufByte (b : Buffer) (i : Nat) : Byte := b[i]?.getD 0

/-- The first `n` bytes of a buffer, in order. -/
def bufTake (b : Buffer) (n : Nat) : List Byte := (List.range n).map (bufByte b)

/-- The buffer that holds `bytes` and is zero after them (R34, R78). -/
def bufOfBytes (bytes : List Byte) : Buffer := Vector.ofFn fun i => bytes.getD i 0

/-- A buffer with byte `i` replaced. -/
def bufSet (b : Buffer) (i : Nat) (v : Byte) : Buffer := b.setIfInBounds i v

/-- `i64(OPA)` (R71). -/
def opaInt (s : State) : Int := s.opa.toInt

/-- `i64(OPB)` (R71). -/
def opbInt (s : State) : Int := s.opb.toInt

/-- `OPA[31:0]`; `OPA[63:32]` is ignored (R71). -/
def opaLow (s : State) : Word := s.opa.extractLsb' 0 32

/-- `Clamp48(t)` (R146): saturates at both ends. -/
def clamp48 (t : Int) : BitVec 48 :=
  if t < 0 then 0
  else if t > 2 ^ 48 - 1 then BitVec.ofNat 48 (2 ^ 48 - 1)
  else BitVec.ofInt 48 t

/-- `Clamp48(i64(OPA))` (R71). -/
def opaClamped (s : State) : BitVec 48 := clamp48 (opaInt s)

/-- `IN[0..n-1]` (R71). -/
def inBytes (s : State) (n : Nat) : List Byte := bufTake s.inp n

end Sys2Proof.Machine
end

