-- ==== Sys2Proof/Machine/Ops.lean ====
section
/-! DEFINITION. The operations the commands share: committing a result and failing (spec/30_encoding.md R78,
spec/60_exceptions.md R206), the engine (spec/40_engine.md R100 to R103), the sampler (spec/41_sampler.md R120 to
R125), and big-endian assembly (spec/20_memory.md R57).

A draw is a function from the engine's word to the value drawn and the word after it, so the sampler is a function of the
stream of draws (R130) and the same text runs on a scripted stream. -/

namespace Sys2Proof.Machine

/-- What a command answers. -/
abbrev Result := Host.Outcome State Fault Refusal

/-! ### Committing and failing -/

/-- The state with the engine's word replaced. -/
def setRng (s : State) (w : Word) : State := { s with rng := w }

/-- `Complete(res, bytes)` (R78). -/
def complete (s : State) (res : DWord) (bytes : List Byte) : State :=
  { s with
    res := res
    outlen := BitVec.ofNat 8 bytes.length
    out := bufOfBytes bytes
    status := s.status.succeed }

/-- `CompleteNoResult()` (R78). -/
def completeNoResult (s : State) : State := { s with status := s.status.succeed }

/-- `raise Error(code)`, that is `Fail(code)` (spec/60_exceptions.md R206): the one operation that takes an error.
It writes `STATUS` only. There is no trap entry, no handler and no return (R208). -/
def fail (s : State) (c : ErrorCode) : State := { s with status := s.status.failWith c }

/-! ### The engine -/

/-- `WEYL` (R6, R100). -/
def weyl : Word := 0x6D2B79F5

/-- `Advance` (R100): the addition wraps at 32 bits. -/
def advance (w : Word) : Word := w + weyl

/-- `MixDoc` (R101). `*` on words is `mul32` (spec/00_scope.md R8). -/
def mixDoc (x : Word) : Word :=
  let t1 := (x ^^^ (x >>> 15)) * (x ||| 1)
  let t2 := (t1 ^^^ (t1 >>> 7)) * (t1 ||| 61)
  t2 ^^^ (t2 >>> 15)

/-- `MixMulberry` (R102). -/
def mixMulberry (x : Word) : Word :=
  let t1 := (x ^^^ (x >>> 15)) * (x ||| 1)
  let t2 := t1 ^^^ (t1 + (t1 ^^^ (t1 >>> 7)) * (t1 ||| 61))
  t2 ^^^ (t2 >>> 14)

/-- `Mix` (R102). -/
def mix (v : MixerVariant) (x : Word) : Word :=
  match v with
  | .doc => mixDoc x
  | .mulberry32 => mixMulberry x

/-- `Draw()` (R103): advance once, then mix the new word. The value drawn, and the word after. -/
def draw (v : MixerVariant) (w : Word) : Word × Word := (mix v (advance w), advance w)

/-! ### The sampler, over any stream of draws (R120, R130) -/

/-- `span = (hi - lo + 1) mod 2^32` (R120). -/
def spanOf (lo hi : Int) : Nat := ((hi - lo + 1) % 2 ^ 32).toNat

/-- `limit = 2^32 - (2^32 mod span)` (R120), exact (R122). -/
def limitOf (span : Nat) : Nat := 2 ^ 32 - 2 ^ 32 % span

/-- The rejection loop (R120), making at most `fuel` draws. On the engine `2^32` draws always suffice (R122), so the last
line is never reached there (log 9). -/
def sampleLoop {σ : Type} (next : σ → Word × σ) (lo : Int) (span : Nat) : Nat → σ → Int × σ
  | 0, st => (lo, st)
  | fuel + 1, st =>
    if (next st).1.toNat < limitOf span then (lo + ((next st).1.toNat % span : Nat), (next st).2)
    else sampleLoop next lo span fuel (next st).2

/-- `SampleInt(lo, hi)` (R120) on a stream; the degenerate span draws nothing (R121). -/
def sampleStream {σ : Type} (next : σ → Word × σ) (lo hi : Int) (st : σ) : Int × σ :=
  if spanOf lo hi = 0 then (lo, st) else sampleLoop next lo (spanOf lo hi) (2 ^ 32) st

/-- `SampleInt(lo, hi)` on the engine: the result, and the engine's word after the draws it made. -/
def sampleInt (v : MixerVariant) (lo hi : Int) (w : Word) : Int × Word := sampleStream (draw v) lo hi w

/-- `n` times a drawing operation, in order: the results and the engine's word after them. -/
def repeatDraw {α : Type} (f : Word → α × Word) : Nat → Word → List α × Word
  | 0, w => ([], w)
  | n + 1, w => ((f w).1 :: (repeatDraw f n (f w).2).1, (repeatDraw f n (f w).2).2)

/-- `DrawByte()` (R124). -/
def drawByte (v : MixerVariant) (w : Word) : Byte × Word :=
  (BitVec.ofInt 8 (sampleInt v 0 255 w).1, (sampleInt v 0 255 w).2)

/-- `DrawBytes(n)` (R125): byte 0 is drawn first. -/
def drawBytes (v : MixerVariant) (n : Nat) (w : Word) : List Byte × Word := repeatDraw (drawByte v) n w

/-- A byte sequence as a big-endian unsigned integer (spec/20_memory.md R57, R127, R152). -/
def beValue (bytes : List Byte) : Nat := bytes.foldl (fun n b => n * 256 + b.toNat) 0

end Sys2Proof.Machine
end

