-- ==== Sys2Proof/Machine/Checksums.lean ====
section
/-! DEFINITION. The checksum commands (spec/43_checksums.md): UPC_CHK, EAN_CHK, UPC_GEN, EAN_GEN. A digit sequence is a
list of numbers; position 1 is its head. -/

namespace Sys2Proof.Machine

/-- The elements at 1-indexed odd positions. -/
def oddPlaces : List Nat → List Nat
  | [] => []
  | [d] => [d]
  | d :: _ :: ds => d :: oddPlaces ds

/-- The elements at 1-indexed even positions. -/
def evenPlaces (ds : List Nat) : List Nat := oddPlaces ds.tail

/-- `UpcCheck` (R180). -/
def upcCheck (ds : List Nat) : Nat := (10 - (3 * (oddPlaces ds).sum + (evenPlaces ds).sum) % 10) % 10

/-- `EanCheck` (R181). -/
def eanCheck (ds : List Nat) : Nat := (10 - ((oddPlaces ds).sum + 3 * (evenPlaces ds).sum) % 10) % 10

/-- `Code(d_1..d_m, c)` as the bytes written (R183): each digit as its ASCII character. -/
def codeBytes (ds : List Nat) (c : Nat) : List Byte := (ds ++ [c]).map fun d => BitVec.ofNat 8 (0x30 + d)

/-- The digits `d_1..d_n`, that is `IN[0..n-1]` (R184, R185). -/
def inDigits (s : State) (n : Nat) : List Nat := (inBytes s n).map BitVec.toNat

/-- Every digit is in 0..9 (R182). -/
def allDigits (ds : List Nat) : Bool := ds.all fun d => d ≤ 9

/-- One drawn digit, `SampleInt(0, 9)` (R186, R187). -/
def drawDigit (v : MixerVariant) (w : Word) : Nat × Word :=
  ((sampleInt v 0 9 w).1.toNat, (sampleInt v 0 9 w).2)

/-- Commit a check digit and its full code (R184 to R187). -/
def completeCode (s : State) (ds : List Nat) (c : Nat) : State :=
  complete s (BitVec.ofNat 64 c) (codeBytes ds c)

/-- UPC_CHK (R184). -/
def execUpcChk (s : State) : Result :=
  if allDigits (inDigits s 11) then .next (completeCode s (inDigits s 11) (upcCheck (inDigits s 11)))
  else .next (fail s .badDigit)

/-- EAN_CHK (R185). -/
def execEanChk (s : State) : Result :=
  if allDigits (inDigits s 12) then .next (completeCode s (inDigits s 12) (eanCheck (inDigits s 12)))
  else .next (fail s .badDigit)

/-- UPC_GEN (R186). -/
def execUpcGen (s : State) : Result :=
  let d := repeatDraw (drawDigit s.params.variant) 11 s.rng
  .next (completeCode (setRng s d.2) d.1 (upcCheck d.1))

/-- EAN_GEN (R187). -/
def execEanGen (s : State) : Result :=
  let d := repeatDraw (drawDigit s.params.variant) 12 s.rng
  .next (completeCode (setRng s d.2) d.1 (eanCheck d.1))

end Sys2Proof.Machine
end

