-- ==== Sys2Proof/Machine/Encoders.lean ====
section
/-! DEFINITION. The identifier encoder commands (spec/42_encoders.md): UUIDv4, ULID, base58, nanoid, ObjectId. A string is
a list of characters; `ascii` gives the bytes the block writes (spec/00_scope.md R10). -/

namespace Sys2Proof.Machine

/-- The ASCII bytes of a string (R10). -/
def ascii (cs : List Char) : List Byte := cs.map fun c => BitVec.ofNat 8 c.toNat

/-- Character `k` of an alphabet (R10). Every rule indexes inside its alphabet. -/
def charAt (alphabet : List Char) (k : Nat) : Char := alphabet.getD k '0'

/-! ### Hex and UUIDv4 -/

/-- The hex digits (R140). -/
def hexDigits : List Char := "0123456789abcdef".toList

/-- A byte as two hex characters, high nibble first (R140). -/
def hexByte (b : Byte) : List Char := [charAt hexDigits (b.toNat / 16), charAt hexDigits (b.toNat % 16)]

/-- `Hex(b)` (R140). -/
def hex (bytes : List Byte) : List Char := bytes.flatMap hexByte

/-- `UuidPattern(b)` (R141). -/
def uuidPattern (b : List Byte) : List Byte :=
  (b.modify 6 fun x => (x &&& 0x0F) ||| 0x40).modify 8 fun x => (x &&& 0x3F) ||| 0x80

/-- `h[i..j-1]` of a string. -/
def slice (h : List Char) (i j : Nat) : List Char := (h.drop i).take (j - i)

/-- `UuidRender(b)` (R142). -/
def uuidRender (b : List Byte) : List Char :=
  let h := hex (uuidPattern b)
  slice h 0 8 ++ ['-'] ++ slice h 8 12 ++ ['-'] ++ slice h 12 16 ++ ['-'] ++ slice h 16 20 ++ ['-'] ++ slice h 20 32

/-- UUID4_GEN (R143). -/
def execUuid4Gen (s : State) : Result :=
  let b := drawBytes s.params.variant 16 s.rng
  .next (complete (setRng s b.2) 0 (ascii (uuidRender b.1)))

/-- UUID4_ENC (R144). -/
def execUuid4Enc (s : State) : Result :=
  .next (complete s 0 (ascii (uuidRender (inBytes s 16))))

/-! ### ULID -/

/-- `CROCK` (R145). -/
def crock : List Char := "0123456789ABCDEFGHJKMNPQRSTVWXYZ".toList

/-- The 128 bits `V` of R147: the 48-bit timestamp, then the ten bytes, most significant first. -/
def ulidValue (ts : BitVec 48) (r : List Byte) : Nat := ts.toNat * 2 ^ 80 + beValue r

/-- `UlidRender(ts, r)` (R147): 26 groups of 5 bits of `W = {V, 0b00}`, from the left. -/
def ulidRender (ts : BitVec 48) (r : List Byte) : List Char :=
  (List.range 26).map fun i => charAt crock (ulidValue ts r * 4 / 2 ^ (125 - 5 * i) % 32)

/-- `UlidSynthTs()` (R148): the high part through the sampler, drawn first; the low part one `Draw()`. -/
def ulidSynthTs (v : MixerVariant) (w : Word) : BitVec 48 × Word :=
  let hi := sampleInt v 0 0xFFFF w
  let lo := draw v hi.2
  (BitVec.ofInt 48 (hi.1 * 2 ^ 32 + lo.1.toNat), lo.2)

/-- ULID_GEN (R149 with `TS = 0`). -/
def execUlidGen (s : State) : Result :=
  let ts := ulidSynthTs s.params.variant s.rng
  let r := drawBytes s.params.variant 10 ts.2
  .next (complete (setRng s r.2) 0 (ascii (ulidRender ts.1 r.1)))

/-- ULID_GEN.TS (R149 with `TS = 1`). -/
def execUlidGenTs (s : State) : Result :=
  let r := drawBytes s.params.variant 10 s.rng
  .next (complete (setRng s r.2) 0 (ascii (ulidRender (opaClamped s) r.1)))

/-- ULID_ENC (R150). -/
def execUlidEnc (s : State) : Result :=
  .next (complete s 0 (ascii (ulidRender (opaClamped s) (inBytes s 10))))

/-! ### Base58 and the short UUID -/

/-- `B58` (R151). -/
def b58 : List Char := "123456789ABCDEFGHJKLMNPQRSTUVWXYZabcdefghijkmnopqrstuvwxyz".toList

/-- The division loop of R152, the digits collected so far in `digits`. Each turn lowers `n`, so `n` turns suffice
(log 10). -/
def base58Loop : Nat → Nat → List Char → List Char
  | 0, _, digits => digits
  | fuel + 1, n, digits =>
    if 0 < n then base58Loop fuel (n / 58) (charAt b58 (n % 58) :: digits) else digits

/-- The base58 digits of a number, most significant first; none for 0 (R152). -/
def base58Digits (n : Nat) : List Char := base58Loop n n []

/-- The number of leading zero bytes (R152). -/
def leadingZeros (b : List Byte) : Nat := (b.takeWhile fun x => x == 0).length

/-- `Base58(b)` (R152). -/
def base58 (b : List Byte) : List Char :=
  let t := List.replicate (leadingZeros b) '1' ++ base58Digits (beValue b)
  if t = [] then ['1'] else t

/-- SUUID_GEN (R153). -/
def execSuuidGen (s : State) : Result :=
  let b := drawBytes s.params.variant 16 s.rng
  .next (complete (setRng s b.2) 0 (ascii (base58 (uuidPattern b.1))))

/-- B58_ENC (R154). -/
def execB58Enc (len : Nat) (s : State) : Result :=
  if 32 < len then .next (fail s .badLength)
  else .next (complete s 0 (ascii (base58 (inBytes s len))))

/-! ### nanoid -/

/-- `NANO` (R156): `A`..`Z`, `a`..`z`, `0`..`9`, `-`, `_` in this order. -/
def nano : List Char :=
  "ABCDEFGHIJKLMNOPQRSTUVWXYZ".toList ++ "abcdefghijklmnopqrstuvwxyz".toList ++ "0123456789".toList ++ ['-', '_']

/-- The effective length: `LEN`, or 21 when `LEN = 0` (R157). -/
def nanoidLen (len : Nat) : Nat := if len = 0 then 21 else len

/-- One symbol of an alphabet of bytes, drawn through `SampleInt(0, A-1)` (R157). -/
def drawSymbol (v : MixerVariant) (alpha : List Byte) (w : Word) : Byte × Word :=
  let k := sampleInt v 0 (alpha.length - 1) w
  (alpha.getD k.1.toNat 0, k.2)

/-- `n` symbols in order (R157). -/
def drawSymbols (v : MixerVariant) (alpha : List Byte) (n : Nat) (w : Word) : List Byte × Word :=
  repeatDraw (drawSymbol v alpha) n w

/-- NANOID (R157 with `CA = 0`). -/
def execNanoid (len : Nat) (s : State) : Result :=
  if 64 < nanoidLen len then .next (fail s .badLength)
  else
    let r := drawSymbols s.params.variant (ascii nano) (nanoidLen len) s.rng
    .next (complete (setRng s r.2) 0 r.1)

/-- NANOID.CA (R157 with `CA = 1`); the `LEN` check comes before the `ALEN` check (spec/60_exceptions.md R205). -/
def execNanoidCa (len alen : Nat) (s : State) : Result :=
  if 64 < nanoidLen len then .next (fail s .badLength)
  else if alen = 0 ∨ 64 < alen then .next (fail s .badLength)
  else
    let r := drawSymbols s.params.variant (inBytes s alen) (nanoidLen len) s.rng
    .next (complete (setRng s r.2) 0 r.1)

/-! ### ObjectId -/

/-- The four bytes of a word, most significant first (spec/20_memory.md R57, R158). -/
def beBytes (w : Word) : List Byte :=
  [w.extractLsb' 24 8, w.extractLsb' 16 8, w.extractLsb' 8 8, w.extractLsb' 0 8]

/-- `ObjIdRender(ts, b)` (R158). -/
def objIdRender (ts : Word) (b : List Byte) : List Char := hex (beBytes ts ++ b)

/-- OBJID_GEN (R159 with `TS = 0`): the timestamp is one `Draw()`, made first. -/
def execObjidGen (s : State) : Result :=
  let ts := draw s.params.variant s.rng
  let b := drawBytes s.params.variant 8 ts.2
  .next (complete (setRng s b.2) 0 (ascii (objIdRender ts.1 b.1)))

/-- OBJID_GEN.TS (R159 with `TS = 1`). -/
def execObjidGenTs (s : State) : Result :=
  let b := drawBytes s.params.variant 8 s.rng
  .next (complete (setRng s b.2) 0 (ascii (objIdRender (opaLow s) b.1)))

/-- OBJID_ENC (R160). -/
def execObjidEnc (s : State) : Result :=
  .next (complete s 0 (ascii (objIdRender (opaLow s) (inBytes s 8))))

end Sys2Proof.Machine
end

