-- ==== Sys2Proof/Machine/Engine.lean ====
section
/-! DEFINITION. The engine commands (spec/40_engine.md): SEED, NEXT_U32, NEXT_F64. -/

namespace Sys2Proof.Machine

/-- `F64Bits(u)` (R106): the binary64 pattern of `u / 2^32`. -/
def f64Bits (u : Word) : DWord :=
  if u = 0 then 0
  else
    0#1 ++ BitVec.ofNat 11 (1023 + Nat.log2 u.toNat - 32) ++ BitVec.ofNat 52 (u.toNat <<< (52 - Nat.log2 u.toNat))

/-- SEED (R104). -/
def execSeed (s : State) : Result :=
  .next (completeNoResult (setRng s (opaLow s)))

/-- NEXT_U32 (R105). -/
def execNextU32 (s : State) : Result :=
  let d := draw s.params.variant s.rng
  .next (complete (setRng s d.2) (d.1.setWidth 64) [])

/-- NEXT_F64 (R107). -/
def execNextF64 (s : State) : Result :=
  let d := draw s.params.variant s.rng
  .next (complete (setRng s d.2) (f64Bits d.1) [])

end Sys2Proof.Machine
end

