-- ==== Sys2Proof/Machine/Sampler.lean ====
section
/-! DEFINITION. The sampler commands (spec/41_sampler.md): INT_INCL, INT_BIG, DRAW_BYTES. -/

namespace Sys2Proof.Machine

/-- INT_INCL (R126). -/
def execIntIncl (s : State) : Result :=
  if opbInt s < opaInt s then .next (fail s .invalidRange)
  else
    let r := sampleInt s.params.variant (opaInt s) (opbInt s) s.rng
    .next (complete (setRng s r.2) (BitVec.ofInt 64 r.1) [])

/-- The value INT_BIG makes of its eight drawn bytes: `lo + (v mod size)` (R127). -/
def bigResult (lo hi : Int) (bytes : List Byte) : Int := lo + (beValue bytes : Int) % (hi - lo + 1)

/-- INT_BIG (R127). -/
def execIntBig (s : State) : Result :=
  if opbInt s < opaInt s then .next (fail s .invalidRange)
  else
    let b := drawBytes s.params.variant 8 s.rng
    .next (complete (setRng s b.2) (BitVec.ofInt 64 (bigResult (opaInt s) (opbInt s) b.1)) [])

/-- DRAW_BYTES (R128). -/
def execDrawBytes (len : Nat) (s : State) : Result :=
  if 64 < len then .next (fail s .badLength)
  else
    let b := drawBytes s.params.variant len s.rng
    .next (complete (setRng s b.2) 0 b.1)

end Sys2Proof.Machine
end

