-- ==== Sys2Proof/Machine/Dispatch.lean ====
section
/-! DEFINITION. `exec`: the meaning of each command, one arm per constructor (spec/30_encoding.md R73, R77). -/

namespace Sys2Proof.Machine

/-- Run a decoded command (R77). -/
def exec (i : Instr) (s : State) : Host.Outcome State Fault Refusal :=
  match i with
  | .seed => Sys2Proof.Machine.execSeed s
  | .nextU32 => Sys2Proof.Machine.execNextU32 s
  | .nextF64 => Sys2Proof.Machine.execNextF64 s
  | .intIncl => Sys2Proof.Machine.execIntIncl s
  | .intBig => Sys2Proof.Machine.execIntBig s
  | .drawBytes len => Sys2Proof.Machine.execDrawBytes len s
  | .uuid4Gen => Sys2Proof.Machine.execUuid4Gen s
  | .uuid4Enc => Sys2Proof.Machine.execUuid4Enc s
  | .ulidGen => Sys2Proof.Machine.execUlidGen s
  | .ulidGenTs => Sys2Proof.Machine.execUlidGenTs s
  | .ulidEnc => Sys2Proof.Machine.execUlidEnc s
  | .suuidGen => Sys2Proof.Machine.execSuuidGen s
  | .b58Enc len => Sys2Proof.Machine.execB58Enc len s
  | .nanoid len => Sys2Proof.Machine.execNanoid len s
  | .nanoidCa len alen => Sys2Proof.Machine.execNanoidCa len alen s
  | .objidGen => Sys2Proof.Machine.execObjidGen s
  | .objidGenTs => Sys2Proof.Machine.execObjidGenTs s
  | .objidEnc => Sys2Proof.Machine.execObjidEnc s
  | .upcChk => Sys2Proof.Machine.execUpcChk s
  | .eanChk => Sys2Proof.Machine.execEanChk s
  | .upcGen => Sys2Proof.Machine.execUpcGen s
  | .eanGen => Sys2Proof.Machine.execEanGen s

end Sys2Proof.Machine
end

