-- ==== Sys2Proof/Machine/Window.lean ====
section
/-! DEFINITION. The register window (spec/20_memory.md R50 to R57): what a read of the word at an offset returns and what a
write to it stores, for every word but the effect of a write to `CMD`, which runs a command (Machine/HostPort.lean). -/

namespace Sys2Proof.Machine

/-- Word `k` of a buffer, byte `4k` in bits 7:0 (R53). -/
def bufWord (b : Buffer) (k : Nat) : Word :=
  bufByte b (4 * k + 3) ++ bufByte b (4 * k + 2) ++ bufByte b (4 * k + 1) ++ bufByte b (4 * k)

/-- A buffer with word `k` replaced: byte `4k + j` gets `v[8j+7:8j]` (R53, R56). -/
def bufSetWord (b : Buffer) (k : Nat) (v : Word) : Buffer :=
  bufSet (bufSet (bufSet (bufSet b (4 * k) (v.extractLsb' 0 8)) (4 * k + 1) (v.extractLsb' 8 8))
    (4 * k + 2) (v.extractLsb' 16 8)) (4 * k + 3) (v.extractLsb' 24 8)

/-- A 64-bit register with its low half replaced (R53). -/
def setLow (x : DWord) (v : Word) : DWord := x.extractLsb' 32 32 ++ v

/-- A 64-bit register with its high half replaced (R53). -/
def setHigh (x : DWord) (v : Word) : DWord := v ++ x.extractLsb' 0 32

/-- `MemRead(BASE + o, 4)` for an offset `o` that is a multiple of 4 (R51, R56). Reserved words read 0 (R54). -/
def memRead (s : State) (o : Nat) : Word :=
  if o = 0x000 then s.cmd
  else if o = 0x004 then s.status.word
  else if o = 0x008 then s.rng
  else if o = 0x00C then s.outlen.setWidth 32
  else if o = 0x010 then s.opa.extractLsb' 0 32
  else if o = 0x014 then s.opa.extractLsb' 32 32
  else if o = 0x018 then s.opb.extractLsb' 0 32
  else if o = 0x01C then s.opb.extractLsb' 32 32
  else if o = 0x020 then s.res.extractLsb' 0 32
  else if o = 0x024 then s.res.extractLsb' 32 32
  else if 0x040 ≤ o ∧ o ≤ 0x07C then bufWord s.inp ((o - 0x040) / 4)
  else if 0x080 ≤ o ∧ o ≤ 0x0BC then bufWord s.out ((o - 0x080) / 4)
  else 0

/-- What `MemWrite(BASE + o, 4, v)` stores (R51, R55, R56), for an offset `o` that is a multiple of 4. A read-only or
reserved word ignores the write. -/
def memStore (s : State) (o : Nat) (v : Word) : State :=
  if o = 0x000 then { s with cmd := v }
  else if o = 0x010 then { s with opa := setLow s.opa v }
  else if o = 0x014 then { s with opa := setHigh s.opa v }
  else if o = 0x018 then { s with opb := setLow s.opb v }
  else if o = 0x01C then { s with opb := setHigh s.opb v }
  else if 0x040 ≤ o ∧ o ≤ 0x07C then { s with inp := bufSetWord s.inp ((o - 0x040) / 4) v }
  else s

/-- The words the host may write, R/W in the map of R51: `CMD`, the operand registers `OPA` and `OPB`, and `IN`. A write to
any other word is ignored (R55). -/
def isReadWrite (o : Nat) : Bool := decide (o = 0x000 ∨ (0x010 ≤ o ∧ o ≤ 0x01C) ∨ (0x040 ≤ o ∧ o ≤ 0x07C))

/-- The offset of an access from `BASE`. -/
def Access.offset : Access → Int
  | .read o _ => o
  | .write o _ _ => o

/-- The width of an access in bytes. -/
def Access.size : Access → Nat
  | .read _ n => n
  | .write _ n _ => n

/-- The access at a platform address (R50: every offset is relative to `BASE`). -/
def readAt (addr size : Nat) : Access := .read ((addr : Int) - Config.base) size

/-- The access at a platform address (R50). -/
def writeAt (addr size : Nat) (v : Word) : Access := .write ((addr : Int) - Config.base) size v

/-- The access starts in `[BASE, BASE + 0x100)`, or starts below and runs into it. Other accesses do not reach the block
(R51; log 17). -/
def Access.reachesWindow (a : Access) : Bool := decide (a.offset < 0x100 ∧ (0 ≤ a.offset ∨ 0 < a.offset + a.size))

/-- The only defined access to the window (R52): an aligned 32-bit word inside it. -/
def Access.isAlignedWord (a : Access) : Bool :=
  decide (0 ≤ a.offset ∧ a.offset < 0x100 ∧ a.offset % 4 = 0 ∧ a.size = 4)

/-- A `STATUS` read, the one access allowed while `BUSY` = 1 (spec/70_reset_and_hazards.md R233). -/
def Access.isStatusRead (a : Access) : Bool := a == .read 0x004 4

end Sys2Proof.Machine
end

