-- ==== Sys2Proof/Machine/HostPort.lean ====
section
/-! DEFINITION. What each host event does to the block: accesses to the window (spec/20_memory.md), the command a `CMD`
write runs (spec/30_encoding.md R77), accesses that miss the window (R51), hand-over between hosts (R61), reset
(spec/70_reset_and_hazards.md R230), and the host's protocol violations (spec/60_exceptions.md R211). -/

namespace Sys2Proof.Machine

/-- `Execute(w)` (R77): an illegal word fails with `ILLEGAL_COMMAND` (R72). -/
def execute (w : Word) (s : State) : Result :=
  match decodeWord w with
  | .ok i => exec i s
  | .error _ => .next (fail s .illegalCommand)

/-- An aligned word access at offset `o` (R56). A read has no side effect on the block (R54); its value goes to the
host (log 5). A write to `CMD` stores the word, then runs it once (R55). -/
def windowAccess (a : Access) (s : State) : Result :=
  match a with
  | .read o _ => .next { s with readLog := memRead s o.toNat :: s.readLog }
  | .write o _ v => if o.toNat = 0x000 then execute v (memStore s 0x000 v) else .next (memStore s o.toNat v)

/-- An access that does not reach the block (R51): the block is unchanged, and a read returns what the platform gives, a
free value (log 6). -/
def platformAccess (a : Access) (s : State) : Result :=
  match a with
  | .read _ _ => .next { s with readLog := Config.platformData s.freeCount :: s.readLog, freeCount := s.freeCount + 1 }
  | .write _ _ _ => .next s

/-- Another host than `h` has exclusive use of the block (R61; log 7). -/
def ownedByOther (s : State) (h : Nat) : Bool :=
  match s.owner with
  | none => false
  | some h' => h' != h

/-- A write to an operand word or to `CMD` opens the host's exclusive use of the block; a read opens none, and neither does a
write to a word that ignores it (R61: the span "runs from the first operand write of a command to the last result read";
a command with no operand write of its own begins at its `CMD` write; log 7). -/
def takeUse (h : Nat) (a : Access) (s : State) : State :=
  match a with
  | .read _ _ => s
  | .write o _ _ => if isReadWrite o.toNat then { s with owner := some h } else s

/-- Host `h` makes access `a`. The three refusals are those of R211. -/
def hostAccess (h : Nat) (a : Access) (s : State) : Result :=
  if a.reachesWindow = false then platformAccess a s
  else if ownedByOther s h then .refused .unsynchronisedHosts
  else if s.status.busy && !a.isStatusRead then .refused .accessWhileBusy
  else if a.isAlignedWord = false then .refused .notAlignedWord
  else windowAccess a (takeUse h a s)

/-- Host `h` ends its exclusive use (R61; log 7). -/
def hostRelease (h : Nat) (s : State) : Result :=
  .next (if s.owner = some h then { s with owner := none } else s)

/-- Reset sets every register to its reset value (R230) and changes no parameter (R42) and nothing of the host
side (log 12). -/
def hostReset (s : State) : Result :=
  .next { State.resetWith s.params with
    pending := s.pending, readLog := s.readLog, owner := s.owner, freeCount := s.freeCount }

/-- What a host event does. -/
def hostEvent (e : HostEvent) (s : State) : Result :=
  match e with
  | .access h a => hostAccess h a s
  | .release h => hostRelease h s
  | .reset => hostReset s

/-- One step: take the next host event (R58). With none pending the block is idle (R231). -/
def hostStep (s : State) : Result :=
  match s.pending with
  | [] => .next s
  | e :: rest => hostEvent e { s with pending := rest }

/-- Host number `h` writes command word `w` to `CMD` (R77, R79). -/
def commandWrite (h : Nat) (w : Word) : HostEvent := .access h (.write 0x000 4 w)

/-- The host whose accesses the block takes now: the owner, or host 0 if there is none (log 7). -/
def currentHost (s : State) : Nat := s.owner.getD 0

/-- The next event is a write of `w` to `CMD` by the host the block takes accesses from, at an idle block (log 14). -/
def withCommand (s : State) (w : Word) : State :=
  { s with pending := commandWrite (currentHost s) w :: s.pending, status := { s.status with busy := false } }

end Sys2Proof.Machine
end

