-- ==== Sys2Proof/Machine/Step.lean ====
section
/-! DEFINITION. One step, and the state whose next step runs a given command word. -/

namespace Sys2Proof.Machine

/-- One step of the machine: the next host event takes effect (spec/20_memory.md R58, spec/30_encoding.md R77). -/
def step (s : State) : Host.Outcome State Fault Refusal := hostStep s

/-- `s` with the command word `w` written to `CMD` next. The block fetches nothing (spec/10_state.md R38), so this is the
host's write (log 4, 14). Bits of `w` from `nbits` up are 0. -/
def State.withFetchWord (s : State) (nbits w : Nat) : State := withCommand s (BitVec.ofNat 32 (w % 2 ^ nbits))

end Sys2Proof.Machine
end

