-- ==== Sys2Proof/Safety.lean ====
section
/-! DEFINITION. The terms the claims use: the stream of draws (spec/40_engine.md R108), what a sampled value is
(spec/41_sampler.md R120, R121), what success and failure leave (spec/30_encoding.md R78, spec/60_exceptions.md R206), the
invariant of the block's registers, and the host accesses with no defined outcome (spec/60_exceptions.md R211). -/

namespace Sys2Proof.Machine

/-- `STATE` after `k` draws from `u` (R108): `(u + k * 0x6D2B79F5) mod 2^32`. -/
def kthState (u : Word) (k : Nat) : Word := u + BitVec.ofNat 32 k * 0x6D2B79F5#32

/-- The `k`-th draw after `u`, `k >= 1` (R108): `Mix` of the word after `k` advances. -/
def kthDraw (v : MixerVariant) (u : Word) (k : Nat) : Word := mix v (kthState u k)

/-- The low bytes of the first `n` draws after `u` (R124, R125). -/
def lowBytes (v : MixerVariant) (u : Word) (n : Nat) : List Byte :=
  (List.range n).map fun i => (kthDraw v u (i + 1)).setWidth 8

/-- `r` is what `SampleInt(lo, hi)` returns on the draws after `u`, and `u'` is `STATE` after them: the draw accepted is
the first one below `limit` (R120), and a degenerate span draws nothing (R121). -/
def SampledFrom (v : MixerVariant) (lo hi : Int) (u : Word) (r : Int) (u' : Word) : Prop :=
  let span : Int := (hi - lo + 1) % 2 ^ 32
  let limit : Int := 2 ^ 32 - 2 ^ 32 % span
  if span = 0 then r = lo ∧ u' = u
  else ∃ k, 1 ≤ k ∧ k ≤ 2 ^ 32 ∧ (∀ j, 1 ≤ j → j < k → limit ≤ (kthDraw v u j).toNat) ∧
    ((kthDraw v u k).toNat : Int) < limit ∧ r = lo + ((kthDraw v u k).toNat : Int) % span ∧ u' = kthState u k

/-- The values of one `SampleInt(lo, hi)` after another. -/
def SampledSeq (v : MixerVariant) (lo hi : Int) : Word → List Int → Word → Prop
  | u, [], u' => u' = u
  | u, r :: rs, u' => ∃ u1, SampledFrom v lo hi u r u1 ∧ SampledSeq v lo hi u1 rs u'

/-- What a command that succeeds with a result leaves: `STATE`, `RES`, `OUTLEN`, `OUT`, `ERR` and `CODE` written, all else
as it was (R40, R78). -/
def committed (s : State) (rng : Word) (res : DWord) (bytes : List Byte) : State :=
  { s with
    rng := rng
    res := res
    outlen := BitVec.ofNat 8 bytes.length
    out := bufOfBytes bytes
    status := { busy := s.status.busy, err := false, everErr := s.status.everErr, code := 0 } }

/-- What a command that fails with error number `c` leaves: `STATUS` written, all else as it was (R206). -/
def failed (s : State) (c : Byte) : State :=
  { s with status := { busy := s.status.busy, err := true, everErr := true, code := c } }

/-- The values `OUTLEN`, `OUT` and `STATUS` can hold: at most 64 bytes and zeros after them (R34); `BUSY` 0 (R37, R233);
no code without an error (R37), and an error with one of the four codes (R200) and `EVERERR` set (R206). -/
abbrev BlockInv (s : State) : Prop :=
  s.outlen.toNat ≤ 64 ∧ (∀ i < 64, s.outlen.toNat ≤ i → bufByte s.out i = 0) ∧ s.status.busy = false ∧
  (s.status.err = false → s.status.code = 0) ∧
  (s.status.err = true → s.status.everErr = true ∧ 1 ≤ s.status.code.toNat ∧ s.status.code.toNat ≤ 4)

/-- An access by host `h` that the spec gives no outcome (R211): one that starts in `[BASE, BASE + 0x100)` (R51, R52), or
starts below and runs into it (log 17), while another host has exclusive use, or while `BUSY` = 1 if it is no `STATUS`
read, or that is not an aligned 32-bit word. -/
abbrev Violates (s : State) (h : Nat) (a : Access) : Prop :=
  ((0 ≤ a.offset ∧ a.offset < 0x100) ∨ (a.offset < 0 ∧ 0 < a.offset + a.size)) ∧
  ((∃ h', s.owner = some h' ∧ h' ≠ h) ∨ (s.status.busy = true ∧ a ≠ .read 0x004 4) ∨
    ¬ (0 ≤ a.offset ∧ a.offset < 0x100 ∧ a.offset % 4 = 0 ∧ a.size = 4))

end Sys2Proof.Machine

namespace Sys2Proof

/-- The generator commands, those that draw (R11, R12, R238). -/
def Instr.isGenerator : Instr → Bool
  | .nextU32 | .nextF64 | .intIncl | .intBig | .drawBytes _ | .uuid4Gen | .ulidGen | .ulidGenTs | .suuidGen | .nanoid _
  | .nanoidCa _ _ | .objidGen | .objidGenTs | .upcGen | .eanGen => true
  | .seed | .uuid4Enc | .ulidEnc | .b58Enc _ | .objidEnc | .upcChk | .eanChk => false

/-- The commands that read all of `OPA`, as `i64` (R40). -/
def Instr.readsOpa : Instr → Bool
  | .intIncl | .intBig | .ulidGenTs | .ulidEnc => true
  | .seed | .nextU32 | .nextF64 | .drawBytes _ | .uuid4Gen | .uuid4Enc | .ulidGen | .suuidGen | .b58Enc _ | .nanoid _
  | .nanoidCa _ _ | .objidGen | .objidGenTs | .objidEnc | .upcChk | .eanChk | .upcGen | .eanGen => false

/-- The commands that read `OPA[31:0]` and ignore `OPA[63:32]` (R40). -/
def Instr.readsOpaLow : Instr → Bool
  | .seed | .objidGenTs | .objidEnc => true
  | .nextU32 | .nextF64 | .intIncl | .intBig | .drawBytes _ | .uuid4Gen | .uuid4Enc | .ulidGen | .ulidGenTs | .ulidEnc
  | .suuidGen | .b58Enc _ | .nanoid _ | .nanoidCa _ _ | .objidGen | .upcChk | .eanChk | .upcGen | .eanGen => false

/-- The commands that read `OPB` (R40). -/
def Instr.readsOpb : Instr → Bool
  | .intIncl | .intBig => true
  | .seed | .nextU32 | .nextF64 | .drawBytes _ | .uuid4Gen | .uuid4Enc | .ulidGen | .ulidGenTs | .ulidEnc | .suuidGen
  | .b58Enc _ | .nanoid _ | .nanoidCa _ _ | .objidGen | .objidGenTs | .objidEnc | .upcChk | .eanChk | .upcGen
  | .eanGen => false

/-- How many bytes of `IN` a command reads, from `IN[0]` (R40). -/
def Instr.inRead : Instr → Nat
  | .uuid4Enc => 16
  | .ulidEnc => 10
  | .b58Enc len => len
  | .nanoidCa _ alen => alen
  | .objidEnc => 8
  | .upcChk => 11
  | .eanChk => 12
  | .seed | .nextU32 | .nextF64 | .intIncl | .intBig | .drawBytes _ | .uuid4Gen | .ulidGen | .ulidGenTs | .suuidGen
  | .nanoid _ | .objidGen | .objidGenTs | .upcGen | .eanGen => 0

/-- The number of draws of a command that succeeds, where it is a number fixed by the command word (R238). -/
def Instr.fixedDraws : Instr → Option Nat
  | .nextU32 | .nextF64 => some 1
  | .intBig | .objidGenTs => some 8
  | .objidGen => some 9
  | .ulidGenTs => some 10
  | .ulidGen => some 12
  | .uuid4Gen | .suuidGen => some 16
  | .drawBytes len => some len
  | .nanoid len => some (if len = 0 then 21 else len)
  | .uuid4Enc | .ulidEnc | .b58Enc _ | .objidEnc | .upcChk | .eanChk => some 0
  | .seed | .intIncl | .nanoidCa _ _ | .upcGen | .eanGen => none

end Sys2Proof

namespace Sys2Proof.Machine

/-- Two states agree on what a command reads (R40): `STATE` and the mixer if it draws, its operand registers, or the low
word of `OPA` alone where it reads no more, its bytes of `IN`. -/
abbrev AgreeOnReads (i : Instr) (s s' : State) : Prop :=
  (i.isGenerator = true → s.rng = s'.rng ∧ s.params.variant = s'.params.variant) ∧
  (i.readsOpa = true → s.opa = s'.opa) ∧
  (i.readsOpaLow = true → s.opa.extractLsb' 0 32 = s'.opa.extractLsb' 0 32) ∧ (i.readsOpb = true → s.opb = s'.opb) ∧
  ∀ j < i.inRead, bufByte s.inp j = bufByte s'.inp j

/-- Bit `n` from the left of the 130-bit string of a ULID (spec/42_encoders.md R147): the 48-bit timestamp, the ten bytes,
two zero bits. -/
def ulidBit (ts : BitVec 48) (r : List Byte) (n : Nat) : Bool :=
  if n < 48 then ts.getMsbD n
  else if n < 128 then (r.getD ((n - 48) / 8) 0).getMsbD ((n - 48) % 8)
  else false

/-- Group `i` of five bits from the left, as a number (R147). -/
def ulidGroup (ts : BitVec 48) (r : List Byte) (i : Nat) : Nat :=
  (ulidBit ts r (5 * i)).toNat * 16 + (ulidBit ts r (5 * i + 1)).toNat * 8 + (ulidBit ts r (5 * i + 2)).toNat * 4 +
  (ulidBit ts r (5 * i + 3)).toNat * 2 + (ulidBit ts r (5 * i + 4)).toNat

/-- The decimal digit byte `i` of `OUT` shows, where that byte is an ASCII digit, `0x30` to `0x39`
(spec/43_checksums.md R183). -/
def codeDigit (s : State) (i : Nat) : Nat := (bufByte s.out i).toNat - 0x30

/-- Every register of R30 of `t` is that of `s`, and so are the parameters. -/
abbrev SameBlock (s t : State) : Prop :=
  t.rng = s.rng ∧ t.opa = s.opa ∧ t.opb = s.opb ∧ t.res = s.res ∧ t.outlen = s.outlen ∧ t.out = s.out ∧ t.inp = s.inp ∧
  t.cmd = s.cmd ∧ t.status = s.status ∧ t.params = s.params

/-- The registers a command never writes (R32, R35, R40, R42) and the host side are those of `s`. -/
abbrev SameOperands (s t : State) : Prop :=
  t.opa = s.opa ∧ t.opb = s.opb ∧ t.inp = s.inp ∧ t.cmd = s.cmd ∧ t.params = s.params ∧ t.pending = s.pending ∧
  t.readLog = s.readLog ∧ t.owner = s.owner ∧ t.freeCount = s.freeCount

end Sys2Proof.Machine
end

