-- ==== Sys2Proof/Certificates/Slice0/Obligations.lean ====
section
/-! DEFINITION. The statements for the provers, each a claim the spec makes of the block. OBLIGATIONS.json names the rules
each one rests on. -/

open Sys2Proof Sys2Proof.Machine

/-! ### Encoding (spec/30_encoding.md R70 to R75) -/

/-- Decoding an encoded well-formed command gives it back, for every value of `LEN` and `ALEN`. -/
def Obligations.DecodeOfEncodeReturnsCommand : Prop :=
  ∀ i : Instr, WellFormed i → decodeWord (encode i) = .ok i

/-- A word the decoder accepts is the encoding of the well-formed command it gives. -/
def Obligations.EncodeOfDecodeReturnsWord : Prop :=
  ∀ (w : Word) (i : Instr), decodeWord w = .ok i → encode i = w ∧ WellFormed i

/-- R72. Rows `r` are `rows`, the table of R73. -/
def Obligations.WordLegalIffExactlyOneRowMatches : Prop :=
  (∀ w : Word, (∃ i, decodeWord w = .ok i) ↔ ∃ r ∈ rows, w &&& r.mask = r.pattern ∧
      ∀ r' ∈ rows, w &&& r'.mask = r'.pattern → r' = r) ∧
  (∀ w : Word, ∀ r ∈ rows, ∀ r' ∈ rows, w &&& r.mask = r.pattern → w &&& r'.mask = r'.pattern → r = r') ∧
  (∀ (w : Word) (s : State), (∀ r ∈ rows, w &&& r.mask ≠ r.pattern) → execute w s = .next (failed s 2))

/-- Words of 95_test_vectors section 2.11 and of R73 decode as the table says. That a word is illegal is the spec's (R74,
R75); the name of the reason the decoder gives is the model's choice (log 15). -/
def Obligations.KnownWordsDecode : Prop :=
  decodeWord 0x00000001 = .ok .seed ∧ decodeWord 0x00000005 = .ok .intBig ∧
  decodeWord 0x00004006 = .ok (.drawBytes 64) ∧ decodeWord 0x01000012 = .ok .ulidGenTs ∧
  decodeWord 0x02100816 = .ok (.nanoidCa 8 16) ∧ decodeWord 0x00000023 = .ok .eanGen ∧
  decodeWord 0x00000102 = .error .fixedField ∧ decodeWord 0x04000002 = .error .reservedBits ∧
  decodeWord 0x00000007 = .error (.reservedOpcode 7)

/-- A decoded command is that of a row the word matches, and its operands are bits 15:8 and 23:16 of the word (R70, R71,
R73). -/
def Obligations.DecodedOperandsAreTheWordsFields : Prop :=
  ∀ (w : Word) (i : Instr), decodeWord w = .ok i →
    (∃ r ∈ rows, r.mnemonic = i.mnemonic ∧ w &&& r.mask = r.pattern) ∧
    (∀ n, i = .drawBytes n ∨ i = .b58Enc n ∨ i = .nanoid n → n = w.toNat / 2 ^ 8 % 2 ^ 8) ∧
    (∀ n a, i = .nanoidCa n a → n = w.toNat / 2 ^ 8 % 2 ^ 8 ∧ a = w.toNat / 2 ^ 16 % 2 ^ 8)

/-! ### A step (spec/30_encoding.md R77, spec/10_state.md R36) -/

/-- When the host's next access writes a legal word to `CMD`, the step is `exec` of the decoded command, on the state with
that access taken, `CMD` written and the host's exclusive use open. The host events in `pending` and the `owner` are the
model's choice (log 4, 7). -/
def Obligations.StepRunsTheDecodedCommand : Prop :=
  ∀ (s : State) (h : Nat) (w : Word) (rest : List HostEvent) (i : Instr),
    s.pending = .access h (.write 0 4 w) :: rest → (s.owner = none ∨ s.owner = some h) → s.status.busy = false →
    decodeWord w = .ok i → step s = exec i { s with pending := rest, owner := some h, cmd := w }

/-- When that word is illegal, the step fails with `ILLEGAL_COMMAND`: `CMD` and `STATUS` are written, no other register
of the block (`pending` and `owner` are the model's choice, log 4, 7). -/
def Obligations.StepOfAnIllegalWordFails : Prop :=
  ∀ (s : State) (h : Nat) (w : Word) (rest : List HostEvent) (e : Reject),
    s.pending = .access h (.write 0 4 w) :: rest → (s.owner = none ∨ s.owner = some h) → s.status.busy = false →
    decodeWord w = .error e → step s = .next (failed { s with pending := rest, owner := some h, cmd := w } 2)

/-- R36. A write of `w` to `CMD` stores `w` and runs it, whether it is legal or not, and `CMD` then reads `w`; nothing but
such a write or reset changes `CMD`; it is 0 after reset. The host events and the `owner` are the model's choice (log 4, 7). -/
def Obligations.CmdHoldsTheLastWordWritten : Prop :=
  (∀ (s : State) (h : Nat) (w : Word) (rest : List HostEvent),
    s.pending = .access h (.write 0 4 w) :: rest → (s.owner = none ∨ s.owner = some h) → s.status.busy = false →
    step s = execute w { s with pending := rest, owner := some h, cmd := w } ∧
    ∃ t, step s = .next t ∧ memRead t 0x000 = w) ∧
  (∀ s t : State, step s = .next t → (∀ h w, s.pending.head? ≠ some (.access h (.write 0 4 w))) →
    s.pending.head? ≠ some .reset → memRead t 0x000 = memRead s 0x000) ∧
  (∀ p : Params, memRead (State.resetWith p) 0x000 = 0)

/-! ### The engine (spec/40_engine.md) -/

/-- R100. -/
def Obligations.AdvanceAddsWeylModulo : Prop :=
  ∀ w : Word, (advance w).toNat = (w.toNat + 0x6D2B79F5) % 2 ^ 32

/-- R101, with `mul32(a, b) = (a * b) mod 2^32`. -/
def Obligations.MixDocIsTwoRoundsAndAShift : Prop :=
  ∀ s : Word,
    let t1 := ((s.toNat ^^^ (s.toNat / 2 ^ 15)) * (s.toNat ||| 1)) % 2 ^ 32
    let t2 := ((t1 ^^^ (t1 / 2 ^ 7)) * (t1 ||| 61)) % 2 ^ 32
    (mix .doc s).toNat = t2 ^^^ (t2 / 2 ^ 15)

/-- R102: the second round adds the product back, and the last shift is 14; `DOC` selects the other mixer. -/
def Obligations.MixMulberryAddsTheProductBack : Prop :=
  ∀ s : Word,
    let t1 := ((s.toNat ^^^ (s.toNat / 2 ^ 15)) * (s.toNat ||| 1)) % 2 ^ 32
    let p := ((t1 ^^^ (t1 / 2 ^ 7)) * (t1 ||| 61)) % 2 ^ 32
    let t2 := t1 ^^^ ((t1 + p) % 2 ^ 32)
    (mix .mulberry32 s).toNat = t2 ^^^ (t2 / 2 ^ 14) ∧ mix .doc s = mixDoc s

/-- R108: after `k` draws `STATE` is `u + k * WEYL`; the sequence visits every word, and its period is exactly `2^32`; the
`k`-th draw is `Mix(u + k * WEYL)`. -/
def Obligations.StateSequenceHasFullPeriod : Prop :=
  (∀ (v : MixerVariant) (u : Word) (k : Nat),
    (fun w => (draw v w).2)^[k] u = u + BitVec.ofNat 32 k * 0x6D2B79F5#32 ∧
    (draw v ((fun w => (draw v w).2)^[k] u)).1 = mix v (u + BitVec.ofNat 32 (k + 1) * 0x6D2B79F5#32)) ∧
  (∀ u w : Word, ∃ k < 2 ^ 32, advance^[k] u = w) ∧
  (∀ (u : Word) (n : Nat), advance^[n] u = u ↔ 2 ^ 32 ∣ n)

/-- R104: SEED sets `STATE` to `OPA[31:0]`, clears `ERR` and `CODE`, and writes nothing else. -/
def Obligations.SeedSetsTheState : Prop :=
  decodeWord 0x00000001 = .ok .seed ∧
  ∀ s : State, exec .seed s =
    .next { s with
      rng := BitVec.ofNat 32 s.opa.toNat
      status := { busy := s.status.busy, err := false, everErr := s.status.everErr, code := 0 } }

/-- R105. -/
def Obligations.NextU32DrawsOneWord : Prop :=
  decodeWord 0x00000002 = .ok .nextU32 ∧
  (∀ s : State, exec .nextU32 s =
    .next { s with
      rng := s.rng + 0x6D2B79F5#32
      res := BitVec.ofNat 64 (mix s.params.variant (s.rng + 0x6D2B79F5#32)).toNat
      outlen := 0
      out := Vector.replicate 64 0
      status := { busy := s.status.busy, err := false, everErr := s.status.everErr, code := 0 } }) ∧
  (∀ v, mix v 0 = 0)

/-- R106: for `u` not 0, sign 0, exponent field `e` in 1..1022 and fraction field `f` with
`(1 + f / 2^52) * 2^(e - 1023) = u / 2^32`, an exact equation; and the two ends of the range. -/
def Obligations.FloatBitsAreExact : Prop :=
  f64Bits 0 = 0 ∧ f64Bits 0xFFFFFFFF = 0x3FEFFFFFFFE00000 ∧
  ∀ u : Word, u ≠ 0 →
    let e := (f64Bits u).toNat / 2 ^ 52 % 2 ^ 11
    let f := (f64Bits u).toNat % 2 ^ 52
    (f64Bits u).toNat < 2 ^ 63 ∧ 1 ≤ e ∧ e < 1023 ∧ (2 ^ 52 + f) * 2 ^ e * 2 ^ 32 = u.toNat * 2 ^ 1075

/-- R107: one draw, its quotient's pattern in `RES`. -/
def Obligations.NextF64DrawsOneFloat : Prop :=
  decodeWord 0x00000003 = .ok .nextF64 ∧
  ∀ s : State, exec .nextF64 s = .next (committed s (s.rng + 0x6D2B79F5#32)
    (f64Bits (mix s.params.variant (s.rng + 0x6D2B79F5#32))) [])

/-! ### The sampler (spec/41_sampler.md) -/

/-- R120, R121: the value sampled comes from the first draw below `limit`, found within `2^32` draws (R122); a degenerate
span returns `lo` and draws nothing. -/
def Obligations.SampleIntReturnsFirstAcceptedDraw : Prop :=
  ∀ (v : MixerVariant) (lo hi : Int) (u : Word),
    SampledFrom v lo hi u (sampleInt v lo hi u).1 (sampleInt v lo hi u).2 ∧
    ((hi - lo + 1) % 2 ^ 32 = 0 → sampleInt v lo hi u = (lo, u))

/-- R122: `limit` is exact, above half of `2^32`, and `2^32` for a power of two; the states run through every word, one
of them mixes below every limit, and so some draw among the first `2^32` is accepted. -/
def Obligations.SamplerLoopAlwaysEnds : Prop :=
  (∀ span : Nat, 1 ≤ span → span < 2 ^ 32 → 2 ^ 31 + 1 ≤ limitOf span ∧ limitOf span ≤ 2 ^ 32) ∧
  (∀ e < 32, limitOf (2 ^ e) = 2 ^ 32) ∧
  (mix .doc 0xDA56F3EA = 0x00147C37 ∧ mix .mulberry32 0xDA56F3EA = 0x00159C37) ∧
  (∀ (v : MixerVariant) (u : Word) (span : Nat), 1 ≤ span → span < 2 ^ 32 →
    ∃ k, 1 ≤ k ∧ k ≤ 2 ^ 32 ∧ (kthDraw v u k).toNat < limitOf span)

/-- R124: `DrawByte()` is `SampleInt(0, 255)`; it makes one draw and returns its low 8 bits. -/
def Obligations.DrawByteIsLowByteOfOneDraw : Prop :=
  ∀ (v : MixerVariant) (u : Word),
    ((drawByte v u).1.toNat : Int) = (sampleInt v 0 255 u).1 ∧ (drawByte v u).2 = (sampleInt v 0 255 u).2 ∧
    (drawByte v u).1.toNat = (draw v u).1.toNat % 256 ∧ (drawByte v u).2 = (draw v u).2

/-- R125: byte 0 is drawn first. -/
def Obligations.DrawBytesAreLowBytesInOrder : Prop :=
  ∀ (v : MixerVariant) (n : Nat) (u : Word), drawBytes v n u = (lowBytes v u n, kthState u n)

/-- R126: INT_INCL over `lo <= hi` completes with a sampled value in `[lo, hi]` in `RES`; over `hi < lo` it fails with
`INVALID_RANGE`. -/
def Obligations.IntInclCommitsASampledValue : Prop :=
  decodeWord 0x00000004 = .ok .intIncl ∧
  ∀ s : State,
    (s.opb.toInt < s.opa.toInt → exec .intIncl s = .next (failed s 1)) ∧
    (s.opa.toInt ≤ s.opb.toInt →
      ∃ (r : Int) (u' : Word), SampledFrom s.params.variant s.opa.toInt s.opb.toInt s.rng r u' ∧
        s.opa.toInt ≤ r ∧ r ≤ s.opb.toInt ∧ exec .intIncl s = .next (committed s u' (BitVec.ofInt 64 r) []))

/-- R127: INT_BIG over `lo <= hi` makes eight draws, assembles their low bytes big-endian, and reduces modulo the size;
over `hi < lo` it fails with `INVALID_RANGE`. -/
def Obligations.IntBigReducesEightBytes : Prop :=
  decodeWord 0x00000005 = .ok .intBig ∧
  ∀ s : State,
    (s.opb.toInt < s.opa.toInt → exec .intBig s = .next (failed s 1)) ∧
    (s.opa.toInt ≤ s.opb.toInt →
      let b := fun i => (kthDraw s.params.variant s.rng (i + 1)).toNat % 256
      let value : Nat := b 0 * 2 ^ 56 + b 1 * 2 ^ 48 + b 2 * 2 ^ 40 + b 3 * 2 ^ 32 + b 4 * 2 ^ 24 + b 5 * 2 ^ 16 +
        b 6 * 2 ^ 8 + b 7
      let r := s.opa.toInt + (value : Int) % (s.opb.toInt - s.opa.toInt + 1)
      exec .intBig s = .next (committed s (kthState s.rng 8) (BitVec.ofInt 64 r) []))

/-- R201: INT_INCL and INT_BIG fail with `INVALID_RANGE` exactly when `OPB < OPA` as signed numbers, before any draw. -/
def Obligations.InvertedRangeFails : Prop :=
  ∀ s : State, (exec .intIncl s = .next (failed s 1) ↔ s.opb.toInt < s.opa.toInt) ∧
    (exec .intBig s = .next (failed s 1) ↔ s.opb.toInt < s.opa.toInt)

/-- R129: results lie in the range; in the degenerate case INT_INCL returns `min`. -/
def Obligations.IntegerResultsStayInRange : Prop :=
  ∀ s : State, s.opa.toInt ≤ s.opb.toInt →
    (∃ t, exec .intIncl s = .next t ∧ s.opa.toInt ≤ t.res.toInt ∧ t.res.toInt ≤ s.opb.toInt ∧
      ((s.opb.toInt - s.opa.toInt + 1) % 2 ^ 32 = 0 → t.res.toInt = s.opa.toInt ∧ t.rng = s.rng)) ∧
    (∃ t, exec .intBig s = .next t ∧ s.opa.toInt ≤ t.res.toInt ∧ t.res.toInt ≤ s.opb.toInt)

/-- R128: `LEN` bytes, 0 to 64, are drawn into `OUT`; a greater `LEN` fails with `BAD_LENGTH`. -/
def Obligations.DrawBytesCommandFillsOut : Prop :=
  (∀ len : BitVec 8, decodeWord (0x0000#16 ++ len ++ 0x06#8) = .ok (.drawBytes len.toNat)) ∧
  ∀ (s : State) (len : Nat),
    (len ≤ 64 →
      exec (.drawBytes len) s = .next (committed s (kthState s.rng len) 0 (lowBytes s.params.variant s.rng len))) ∧
    (64 < len → exec (.drawBytes len) s = .next (failed s 3))

/-- R203: exactly these lengths fail with `BAD_LENGTH`. -/
def Obligations.LengthsOutOfRangeFail : Prop :=
  ∀ (s : State) (len alen : Nat),
    (exec (.drawBytes len) s = .next (failed s 3) ↔ len > 64) ∧
    (exec (.b58Enc len) s = .next (failed s 3) ↔ len > 32) ∧
    (exec (.nanoid len) s = .next (failed s 3) ↔ (if len = 0 then 21 else len) > 64) ∧
    (exec (.nanoidCa len alen) s = .next (failed s 3) ↔
      (if len = 0 then 21 else len) > 64 ∨ alen = 0 ∨ alen > 64)

/-! ### Committing (spec/30_encoding.md R78) -/

/-- R78: `Complete` writes `RES`, `OUTLEN`, all of `OUT`, `ERR` and `CODE`; `CompleteNoResult` writes `ERR` and `CODE`. -/
def Obligations.CompleteWritesResultAndOut : Prop :=
  ∀ (s : State) (res : DWord) (bytes : List Byte), bytes.length ≤ 64 →
    let t := complete s res bytes
    t.res = res ∧ t.outlen.toNat = bytes.length ∧
    (∀ i < 64, bufByte t.out i = if i < bytes.length then bytes.getD i 0 else 0x00) ∧
    t.status = { busy := s.status.busy, err := false, everErr := s.status.everErr, code := 0 } ∧
    t.rng = s.rng ∧ SameOperands s t ∧
    completeNoResult s = { s with
      status := { busy := s.status.busy, err := false, everErr := s.status.everErr, code := 0 } }

/-! ### Identifier encoders (spec/42_encoders.md) -/

/-- R140. -/
def Obligations.HexRendersHighNibbleFirst : Prop :=
  ∀ b : List Byte, (hex b).length = 2 * b.length ∧
    ∀ i < b.length,
      (hex b).getD (2 * i) '?' = "0123456789abcdef".toList.getD ((b.getD i 0).extractLsb' 4 4).toNat '?' ∧
      (hex b).getD (2 * i + 1) '?' = "0123456789abcdef".toList.getD ((b.getD i 0).extractLsb' 0 4).toNat '?'

/-- R141. -/
def Obligations.UuidPatternForcesVersionAndVariant : Prop :=
  ∀ b : List Byte, b.length = 16 →
    (uuidPattern b).length = 16 ∧
    (uuidPattern b).getD 6 0 = (b.getD 6 0 &&& 0x0F) ||| 0x40 ∧
    (uuidPattern b).getD 8 0 = (b.getD 8 0 &&& 0x3F) ||| 0x80 ∧
    (∀ i, i ≠ 6 → i ≠ 8 → (uuidPattern b).getD i 0 = b.getD i 0) ∧
    ((uuidPattern b).getD 6 0).extractLsb' 4 4 = 0b0100#4 ∧ ((uuidPattern b).getD 8 0).extractLsb' 6 2 = 0b10#2

/-- R142: the 32 hex characters grouped 8-4-4-4-12 with hyphens, matching the validity pattern. -/
def Obligations.UuidStringHasItsShape : Prop :=
  ∀ b : List Byte, b.length = 16 →
    let u := uuidRender b
    u.length = 36 ∧ (∀ i ∈ [8, 13, 18, 23], u.getD i '?' = '-') ∧ u.getD 14 '?' = '4' ∧
    u.getD 19 '?' ∈ ['8', '9', 'a', 'b'] ∧
    (∀ i < 36, i ∉ [8, 13, 18, 23] → u.getD i '?' ∈ "0123456789abcdef".toList) ∧
    u.filter (fun c => c ≠ '-') = hex (uuidPattern b)

/-- R143, R144: UUID4_GEN renders the low bytes of 16 draws, UUID4_ENC `IN[0..15]` with no draw. -/
def Obligations.UuidCommandsRenderTheirBytes : Prop :=
  decodeWord 0x00000010 = .ok .uuid4Gen ∧ decodeWord 0x00000011 = .ok .uuid4Enc ∧
  ∀ s : State,
    exec .uuid4Gen s = .next (committed s (kthState s.rng 16) 0
      (ascii (uuidRender (lowBytes s.params.variant s.rng 16)))) ∧
    exec .uuid4Enc s = .next (committed s s.rng 0 (ascii (uuidRender ((List.range 16).map (bufByte s.inp)))))

/-- R146. -/
def Obligations.ClampSaturatesAtBothEnds : Prop :=
  ∀ t : Int, ((clamp48 t).toNat : Int) = if t < 0 then 0 else if t > 2 ^ 48 - 1 then 2 ^ 48 - 1 else t

/-- R147: character `i` is the Crockford symbol of the `i`-th group of five bits from the left of the timestamp's 48 bits,
the bytes' 80 and two zero bits. -/
def Obligations.UlidCharactersAreFiveBitGroups : Prop :=
  ∀ (ts : BitVec 48) (r : List Byte), r.length = 10 →
    (ulidRender ts r).length = 26 ∧
    (∀ i < 26, (ulidRender ts r).getD i '?' =
      "0123456789ABCDEFGHJKMNPQRSTVWXYZ".toList.getD (ulidGroup ts r i) '?') ∧
    (∀ c ∈ ulidRender ts r, c ∈ "0123456789ABCDEFGHJKMNPQRSTVWXYZ".toList) ∧ ulidGroup ts r 25 % 4 = 0

/-- R148 to R150: ULID_GEN takes its timestamp from draws 1 (its low 16 bits, high part) and 2 (low part) and its bytes
from draws 3 to 12; ULID_GEN.TS and ULID_ENC clamp `OPA`. -/
def Obligations.UlidCommandsRenderTheirFields : Prop :=
  decodeWord 0x00000012 = .ok .ulidGen ∧ decodeWord 0x01000012 = .ok .ulidGenTs ∧ decodeWord 0x00000013 = .ok .ulidEnc ∧
  ∀ s : State,
    let d := kthDraw s.params.variant s.rng
    exec .ulidGen s = .next (committed s (kthState s.rng 12) 0 (ascii (ulidRender
      (BitVec.ofNat 48 ((d 1).toNat % 2 ^ 16 * 2 ^ 32 + (d 2).toNat))
      (lowBytes s.params.variant (kthState s.rng 2) 10)))) ∧
    exec .ulidGenTs s = .next (committed s (kthState s.rng 10) 0
      (ascii (ulidRender (clamp48 s.opa.toInt) (lowBytes s.params.variant s.rng 10)))) ∧
    exec .ulidEnc s = .next (committed s s.rng 0
      (ascii (ulidRender (clamp48 s.opa.toInt) ((List.range 10).map (bufByte s.inp)))))

/-- R152: a base58 string is one `1` for each leading zero byte, then the base-58 digits of the big-endian value, most
significant first and without a leading zero digit; no bytes give `1`. -/
def Obligations.Base58WritesTheBigEndianValue : Prop :=
  ∀ b : List Byte, ∃ ds : List Nat,
    (∀ d ∈ ds, d < 58) ∧ ds.head? ≠ some 0 ∧
    ds.foldl (fun n d => n * 58 + d) 0 = ((List.range b.length).map fun i =>
      (b.getD i 0).toNat * 2 ^ (8 * (b.length - 1 - i))).sum ∧
    base58 b = if b = [] then ['1'] else
      List.replicate (b.takeWhile fun x => x == 0).length '1' ++
        ds.map fun d => "123456789ABCDEFGHJKLMNPQRSTUVWXYZabcdefghijkmnopqrstuvwxyz".toList.getD d '?'

/-- R155: 19 to 22 characters, and both ends are reached. -/
def Obligations.ShortUuidHas19To22Characters : Prop :=
  (∀ b : List Byte, b.length = 16 →
    19 ≤ (base58 (uuidPattern b)).length ∧ (base58 (uuidPattern b)).length ≤ 22) ∧
  (base58 (uuidPattern [0xFF, 0xFF, 0xFF, 0xFF, 0xFF, 0xFF, 0x4F, 0xFF, 0xBF, 0xFF, 0xFF, 0xFF, 0xFF, 0xFF, 0xFF,
    0xFF])).length = 22 ∧
  base58 (uuidPattern [0, 0, 0, 0, 0, 1, 0x40, 0, 0x80, 0, 0, 0, 0, 0, 0, 0]) = "11111JyjyGkiGt9eVH9".toList

/-- R153, R154: SUUID_GEN encodes the patterned low bytes of 16 draws; B58_ENC encodes `IN[0..LEN-1]`, `LEN` up to 32, in at
most 44 characters. -/
def Obligations.Base58CommandsEncodeTheirBytes : Prop :=
  ∀ s : State,
    exec .suuidGen s = .next (committed s (kthState s.rng 16) 0
      (ascii (base58 (uuidPattern (lowBytes s.params.variant s.rng 16))))) ∧
    ∀ len ≤ 32, exec (.b58Enc len) s = .next (committed s s.rng 0
        (ascii (base58 ((List.range len).map (bufByte s.inp))))) ∧
      (base58 ((List.range len).map (bufByte s.inp))).length ≤ 44

/-- R157 with the default alphabet, in the order of R156: symbol `i` is indexed by the low 6 bits of draw `i + 1`. -/
def Obligations.NanoidUsesLowSixBitsOfEachDraw : Prop :=
  ∀ (s : State) (len : Nat), len ≤ 64 →
    let n := if len = 0 then 21 else len
    exec (.nanoid len) s = .next (committed s (kthState s.rng n) 0 ((List.range n).map fun i =>
      BitVec.ofNat 8 (("ABCDEFGHIJKLMNOPQRSTUVWXYZabcdefghijklmnopqrstuvwxyz0123456789-_".toList.getD
        ((kthDraw s.params.variant s.rng (i + 1)).toNat % 64) '?').toNat)))

/-- R157 with a caller alphabet: each symbol is `IN[k]` for `k` sampled from `0..ALEN-1`, one after another. -/
def Obligations.NanoidCustomSamplesItsAlphabet : Prop :=
  ∀ (s : State) (len alen : Nat), len ≤ 64 → 1 ≤ alen → alen ≤ 64 →
    ∃ (ks : List Int) (u' : Word), ks.length = (if len = 0 then 21 else len) ∧ (∀ k ∈ ks, 0 ≤ k ∧ k < alen) ∧
      SampledSeq s.params.variant 0 ((alen : Int) - 1) s.rng ks u' ∧
      exec (.nanoidCa len alen) s = .next (committed s u' 0 (ks.map fun k => bufByte s.inp k.toNat))

/-- R158: 8 hex characters of the timestamp, most significant nibble first, then 16 of the bytes. -/
def Obligations.ObjectIdRendersTimestampThenBytes : Prop :=
  ∀ (ts : Word) (b : List Byte), b.length = 8 →
    (objIdRender ts b).length = 24 ∧
    (∀ k < 8, (objIdRender ts b).getD k '?' =
      "0123456789abcdef".toList.getD (ts.toNat / 16 ^ (7 - k) % 16) '?') ∧
    (∀ i < 8, (objIdRender ts b).getD (8 + 2 * i) '?' =
        "0123456789abcdef".toList.getD ((b.getD i 0).toNat / 16) '?' ∧
      (objIdRender ts b).getD (9 + 2 * i) '?' = "0123456789abcdef".toList.getD ((b.getD i 0).toNat % 16) '?')

/-- R159, R160: OBJID_GEN's timestamp is the whole first draw, its bytes the low bytes of draws 2 to 9; the other two take
`OPA[31:0]`. -/
def Obligations.ObjectIdCommandsRenderTheirFields : Prop :=
  decodeWord 0x00000017 = .ok .objidGen ∧ decodeWord 0x01000017 = .ok .objidGenTs ∧
  decodeWord 0x00000018 = .ok .objidEnc ∧
  ∀ s : State,
    exec .objidGen s = .next (committed s (kthState s.rng 9) 0
      (ascii (objIdRender (kthDraw s.params.variant s.rng 1) (lowBytes s.params.variant (kthState s.rng 1) 8)))) ∧
    exec .objidGenTs s = .next (committed s (kthState s.rng 8) 0
      (ascii (objIdRender (BitVec.ofNat 32 s.opa.toNat) (lowBytes s.params.variant s.rng 8)))) ∧
    exec .objidEnc s = .next (committed s s.rng 0
      (ascii (objIdRender (BitVec.ofNat 32 s.opa.toNat) ((List.range 8).map (bufByte s.inp)))))

/-! ### Checksums (spec/43_checksums.md) -/

/-- R180, R181. -/
def Obligations.CheckDigitFormulas : Prop :=
  ∀ d1 d2 d3 d4 d5 d6 d7 d8 d9 d10 d11 d12 : Nat,
    upcCheck [d1, d2, d3, d4, d5, d6, d7, d8, d9, d10, d11] =
      (10 - (3 * (d1 + d3 + d5 + d7 + d9 + d11) + (d2 + d4 + d6 + d8 + d10)) % 10) % 10 ∧
    eanCheck [d1, d2, d3, d4, d5, d6, d7, d8, d9, d10, d11, d12] =
      (10 - ((d1 + d3 + d5 + d7 + d9 + d11) + 3 * (d2 + d4 + d6 + d8 + d10 + d12)) % 10) % 10

/-- R184, R185, with the code of R183: over valid host digits UPC_CHK and EAN_CHK post the check digit and the full code,
and draw nothing; a byte above 9 fails with `BAD_DIGIT`. -/
def Obligations.ChecksumCommandsCheckHostDigits : Prop :=
  decodeWord 0x00000020 = .ok .upcChk ∧ decodeWord 0x00000021 = .ok .eanChk ∧
  ∀ s : State,
    let ds := fun n => (List.range n).map fun i => (bufByte s.inp i).toNat
    let code := fun (l : List Nat) (c : Nat) => (l ++ [c]).map fun d => BitVec.ofNat 8 (0x30 + d)
    ((∀ i < 11, (bufByte s.inp i).toNat ≤ 9) → exec .upcChk s = .next (committed s s.rng
      (BitVec.ofNat 64 (upcCheck (ds 11))) (code (ds 11) (upcCheck (ds 11))))) ∧
    ((∃ i < 11, 9 < (bufByte s.inp i).toNat) → exec .upcChk s = .next (failed s 4)) ∧
    ((∀ i < 12, (bufByte s.inp i).toNat ≤ 9) → exec .eanChk s = .next (committed s s.rng
      (BitVec.ofNat 64 (eanCheck (ds 12))) (code (ds 12) (eanCheck (ds 12))))) ∧
    ((∃ i < 12, 9 < (bufByte s.inp i).toNat) → exec .eanChk s = .next (failed s 4))

/-- R182, R204: an input byte above 9 fails with `BAD_DIGIT`, and only then; the generators cannot raise it. -/
def Obligations.BadDigitsFail : Prop :=
  ∀ s : State,
    (exec .upcChk s = .next (failed s 4) ↔ ∃ i < 11, 10 ≤ (bufByte s.inp i).toNat) ∧
    (exec .eanChk s = .next (failed s 4) ↔ ∃ i < 12, 10 ≤ (bufByte s.inp i).toNat) ∧
    (∃ t, exec .upcGen s = .next t ∧ t.status.err = false) ∧ (∃ t, exec .eanGen s = .next t ∧ t.status.err = false)

/-- R186, R187: the digits are sampled from 0..9 one after another, position 1 first. -/
def Obligations.ChecksumGeneratorsSampleTheirDigits : Prop :=
  decodeWord 0x00000022 = .ok .upcGen ∧ decodeWord 0x00000023 = .ok .eanGen ∧
  ∀ s : State,
    let code := fun (l : List Nat) (c : Nat) => (l ++ [c]).map fun d => BitVec.ofNat 8 (0x30 + d)
    (∃ (ds : List Nat) (u' : Word), ds.length = 11 ∧ (∀ d ∈ ds, d ≤ 9) ∧
      SampledSeq s.params.variant 0 9 s.rng (ds.map Int.ofNat) u' ∧
      exec .upcGen s = .next (committed s u' (BitVec.ofNat 64 (upcCheck ds)) (code ds (upcCheck ds)))) ∧
    (∃ (ds : List Nat) (u' : Word), ds.length = 12 ∧ (∀ d ∈ ds, d ≤ 9) ∧
      SampledSeq s.params.variant 0 9 s.rng (ds.map Int.ofNat) u' ∧
      exec .eanGen s = .next (committed s u' (BitVec.ofNat 64 (eanCheck ds)) (code ds (eanCheck ds))))

/-- R188: every full code the block produces is ASCII decimal digits (R183) and passes its checksum. -/
def Obligations.FullCodesPassTheirChecksum : Prop :=
  ∀ (i : Instr) (s : State), i = .upcChk ∨ i = .upcGen ∨ i = .eanChk ∨ i = .eanGen →
    ∃ t, exec i s = .next t ∧ (t.status.err = false →
      let c := codeDigit t
      if i = .upcChk ∨ i = .upcGen then
        t.outlen = 12 ∧ (∀ k < 12, 0x30 ≤ (bufByte t.out k).toNat ∧ (bufByte t.out k).toNat ≤ 0x39) ∧
        (3 * (c 0 + c 2 + c 4 + c 6 + c 8 + c 10) + (c 1 + c 3 + c 5 + c 7 + c 9 + c 11)) % 10 = 0
      else
        t.outlen = 13 ∧ (∀ k < 13, 0x30 ≤ (bufByte t.out k).toNat ∧ (bufByte t.out k).toNat ≤ 0x39) ∧
        ((c 0 + c 2 + c 4 + c 6 + c 8 + c 10 + c 12) + 3 * (c 1 + c 3 + c 5 + c 7 + c 9 + c 11)) % 10 = 0)

/-! ### The register window (spec/20_memory.md) -/

/-- R54: a read returns the word's current value and changes nothing of the block, so every word reads the same after it;
reserved words read 0. The host events, the read log, and that a read leaves the `owner` as it was, are the model's choice
(log 4, 5, 7). -/
def Obligations.ReadsChangeNothing : Prop :=
  ∀ (s : State) (h o : Nat) (rest : List HostEvent),
    s.pending = .access h (.read o 4) :: rest → (s.owner = none ∨ s.owner = some h) → s.status.busy = false →
    o < 0x100 → o % 4 = 0 →
    ∃ t, step s = .next t ∧ SameBlock s t ∧ t.readLog = memRead s o :: s.readLog ∧ t.pending = rest ∧ t.owner = s.owner ∧
      (∀ o', memRead t o' = memRead s o') ∧ ((0x028 ≤ o ∧ o ≤ 0x03C ∨ 0x0C0 ≤ o) → memRead s o = 0)

/-- R55: a write to a read/write word replaces that word alone; a write to `CMD` stores the word and runs it once; a write
to a read-only or reserved word changes nothing of the block. R61: the write of an operand opens the host's exclusive use,
and a write that is ignored opens none. The host events and the `owner` are the model's choice (log 4, 7). -/
def Obligations.WritesReplaceOneWord : Prop :=
  ∀ (s : State) (h o : Nat) (v : Word) (rest : List HostEvent),
    s.pending = .access h (.write o 4 v) :: rest → (s.owner = none ∨ s.owner = some h) → s.status.busy = false →
    o < 0x100 → o % 4 = 0 →
    if o = 0x000 then step s = execute v { s with pending := rest, owner := some h, cmd := v }
    else ∃ t, step s = .next t ∧ t.pending = rest ∧
      if (0x010 ≤ o ∧ o ≤ 0x01C) ∨ (0x040 ≤ o ∧ o ≤ 0x07C) then
        memRead t o = v ∧ t.owner = some h ∧ ∀ o' < 0x100, o' % 4 = 0 → o' ≠ o → memRead t o' = memRead s o'
      else SameBlock s t ∧ t.owner = s.owner

/-- R37, R51, R53, R56: what every register's words read. `STATUS` shows its four fields at bits 0, 1, 2 and 15:8 and 0
elsewhere; `CMD`, `STATE` and `OUTLEN` are single words; byte lanes are little-endian in the words of `IN` and `OUT`, read and
written; a 64-bit register is the pair of its high and low words. -/
def Obligations.WindowWordsShowTheRegisters : Prop :=
  ∀ (s : State) (v : Word),
    memRead s 0x000 = s.cmd ∧
    ((memRead s 0x004).getLsbD 0 = s.status.busy ∧ (memRead s 0x004).getLsbD 1 = s.status.err ∧
      (memRead s 0x004).getLsbD 2 = s.status.everErr ∧ (memRead s 0x004).extractLsb' 8 8 = s.status.code ∧
      (∀ i, 3 ≤ i ∧ i ≤ 7 ∨ 16 ≤ i ∧ i ≤ 31 → (memRead s 0x004).getLsbD i = false)) ∧
    memRead s 0x008 = s.rng ∧ (memRead s 0x00C).toNat = s.outlen.toNat ∧
    (∀ k < 16, ∀ j < 4,
      (memRead s (0x040 + 4 * k)).extractLsb' (8 * j) 8 = bufByte s.inp (4 * k + j) ∧
      (memRead s (0x080 + 4 * k)).extractLsb' (8 * j) 8 = bufByte s.out (4 * k + j) ∧
      bufByte (memStore s (0x040 + 4 * k) v).inp (4 * k + j) = v.extractLsb' (8 * j) 8) ∧
    s.opa = memRead s 0x014 ++ memRead s 0x010 ∧ s.opb = memRead s 0x01C ++ memRead s 0x018 ∧
    s.res = memRead s 0x024 ++ memRead s 0x020

/-- R211: exactly the three host behaviours without an outcome are refused, of accesses that start at offsets 0 to 0xFF
(R51, R52), and nothing stops with a fault. When a host has exclusive use, and the host events, are the model's choice
(log 4, 7), and so is that an access that starts below `BASE` and runs into the window counts among them (log 17). -/
def Obligations.OnlyProtocolViolationsAreRefused : Prop :=
  ∀ s : State,
    ((∃ r, step s = .refused r) ↔ ∃ h a rest, s.pending = .access h a :: rest ∧ Violates s h a) ∧
    (∀ f, step s ≠ .fault f)

/-- R51: an access that does not reach the window changes no register of the block: what else it does, the spec leaves to the
platform, and the model's choice is log 6. The host events and the `owner` are the model's choice too (log 4, 7). -/
def Obligations.AccessesOutsideMissTheBlock : Prop :=
  ∀ (s : State) (h : Nat) (a : Access) (rest : List HostEvent),
    s.pending = .access h a :: rest → (0x100 ≤ a.offset ∨ a.offset + a.size ≤ 0 ∧ a.offset < 0) →
    ∃ t, step s = .next t ∧ SameBlock s t ∧ t.pending = rest ∧ t.owner = s.owner

/-- R230: reset gives every register its reset value, `STATE` the parameter `DEFAULT_SEED`, and makes no draw; a reset of a
running block does the same with its parameters. Reset as a host event is the model's choice (log 4, 12), and so are
the parameters of `State.reset` (log 1, 2). -/
def Obligations.ResetSetsEveryRegister : Prop :=
  (∀ p : Params, (State.resetWith p).rng = p.defaultSeed ∧ (State.resetWith p).params = p ∧
    (∀ o < 0x100, o % 4 = 0 → o ≠ 0x008 → memRead (State.resetWith p) o = 0)) ∧
  State.reset = State.resetWith { variant := .doc, defaultSeed := Config.defaultSeed } ∧
  ∀ (s : State) (rest : List HostEvent), s.pending = .reset :: rest →
    ∃ t, step s = .next t ∧ SameBlock (State.resetWith s.params) t ∧ t.pending = rest

/-! ### The whole machine -/

/-- The invariant of `OUTLEN`, `OUT` and `STATUS` holds right after reset, for any parameters. -/
def Obligations.InvariantHoldsAtReset : Prop :=
  BlockInv State.reset ∧ ∀ p, BlockInv (State.resetWith p)

/-- Every step keeps the invariant, from every state that meets it. -/
def Obligations.InvariantKeptByEveryStep : Prop :=
  ∀ s t : State, BlockInv s → step s = .next t → BlockInv t

/-- R207: `Fail` sets `EVERERR`, success leaves it, and only reset clears it (that reset is a
host event is the model's choice: log 4, 12). -/
def Obligations.EverErrIsSticky : Prop :=
  (∀ (s : State) (c : ErrorCode), (fail s c).status.everErr = true) ∧
  (∀ (s : State) (res : DWord) (bytes : List Byte),
    (complete s res bytes).status.everErr = s.status.everErr ∧ (complete s res bytes).status.err = false ∧
    (complete s res bytes).status.code = 0 ∧ (completeNoResult s).status.everErr = s.status.everErr ∧
    (completeNoResult s).status.err = false ∧ (completeNoResult s).status.code = 0) ∧
  (∀ s t : State, s.status.everErr = true → step s = .next t → s.pending.head? ≠ some .reset →
    t.status.everErr = true)

/-- R206, R209: every command ends, in a next state; it fails with one of the codes 1 to 4 and writes only `STATUS`, or it
succeeds with `ERR` and `CODE` clear and `EVERERR` as it was. No command writes `OPA`, `OPB`, `IN`, `CMD` or a parameter. -/
def Obligations.CommandsEndAndFailuresArePrecise : Prop :=
  (∀ (s : State) (c : ErrorCode), fail s c = failed s c.bits) ∧
  ∀ (i : Instr) (s : State), ∃ t, exec i s = .next t ∧ SameOperands s t ∧ t.status.busy = s.status.busy ∧
    ((∃ c : Byte, 1 ≤ c.toNat ∧ c.toNat ≤ 4 ∧ t = failed s c) ∨
      (t.status.err = false ∧ t.status.code = 0 ∧ t.status.everErr = s.status.everErr))

/-- R238, for the commands whose number of draws is fixed, and NANOID.CA over a power of two. -/
def Obligations.CommandsMakeTheirDraws : Prop :=
  (∀ (i : Instr) (n : Nat), i.fixedDraws = some n → ∀ s : State, ∃ t, exec i s = .next t ∧
    t.rng = if t.status.err then s.rng else kthState s.rng n) ∧
  (∀ (s : State) (len e : Nat), len ≤ 64 → e ≤ 6 → ∃ t, exec (.nanoidCa len (2 ^ e)) s = .next t ∧
    t.rng = kthState s.rng (if len = 0 then 21 else len))

/-- R40, R109, R12: two states that agree on what a command reads (for SEED, OBJID_GEN.TS and OBJID_ENC, of `OPA` only
`OPA[31:0]`) get the same outcome: the same error or the same result,
output and, if it draws or seeds, the same `STATE`. -/
def Obligations.CommandsReadOnlyTheirOperands : Prop :=
  ∀ (i : Instr) (s s' : State), AgreeOnReads i s s' →
    ∃ t t', exec i s = .next t ∧ exec i s' = .next t' ∧ t.status.err = t'.status.err ∧ t.status.code = t'.status.code ∧
      (t.status.err = false → i ≠ .seed → t.res = t'.res ∧ t.outlen = t'.outlen ∧ t.out = t'.out) ∧
      (i.isGenerator = true ∨ i = .seed → t.rng = t'.rng) ∧
      (i.isGenerator = false → i ≠ .seed → t.rng = s.rng)

/-- R31: `STATE` changes only when the host runs SEED, which sets it, or a command that draws, or when the block is reset;
no write of the host reaches it. The host events in `pending`, reset among them, are the model's choice (log 4, 12). -/
def Obligations.EngineStateChangesOnlyBySeedDrawsOrReset : Prop :=
  ∀ s t : State, step s = .next t →
    t.rng = s.rng ∨ (∃ rest, s.pending = .reset :: rest ∧ t.rng = s.params.defaultSeed) ∨
    ∃ h w rest i, s.pending = .access h (.write 0 4 w) :: rest ∧ decodeWord w = .ok i ∧
      ((i = .seed ∧ t.rng = BitVec.ofNat 32 s.opa.toNat) ∨ (i.isGenerator = true ∧ t.status.err = false))

/-- R42: no step changes a parameter (that `State` carries them is the model's choice, log 1). -/
def Obligations.ParametersNeverChange : Prop :=
  ∀ s t : State, step s = .next t → t.params = s.params
end

