-- ==== Sys2Proof/Laws/Buffer.lean ====
section
/-! SUPPORT. The bytes of a buffer after each buffer operation (spec/10_state.md R34, R35; spec/20_memory.md R53). -/

namespace Sys2Proof.Machine

/-- `OUT[i]` after `Complete`: byte `i` of the result, zero past it (R78). -/
theorem bufByte_bufOfBytes (bytes : List Byte) {i : Nat} (h : i < 64) : bufByte (bufOfBytes bytes) i = bytes.getD i 0 := by
  simp [bufByte, bufOfBytes, h]

theorem bufByte_bufSet (b : Buffer) (i j : Nat) (v : Byte) (h : i < 64) :
    bufByte (bufSet b i v) j = if i = j then v else bufByte b j := by
  unfold bufByte bufSet
  by_cases hij : i = j
  · subst hij; simp [h]
  · simp [Vector.getElem?_setIfInBounds_ne, hij]

/-- A buffer is its bytes. -/
theorem buf_ext {a b : Buffer} (h : ∀ i < 64, bufByte a i = bufByte b i) : a = b := by
  apply Vector.ext
  intro i hi
  simpa [bufByte, hi] using h i hi

theorem bufOfBytes_nil : bufOfBytes [] = Vector.replicate 64 0 := by
  apply buf_ext
  intro i hi
  rw [bufByte_bufOfBytes _ hi]
  simp [bufByte, hi]

@[simp] theorem length_bufTake (b : Buffer) (n : Nat) : (bufTake b n).length = n := by simp [bufTake]

theorem bufTake_getD (b : Buffer) {n i : Nat} (h : i < n) : (bufTake b n).getD i 0 = bufByte b i := by
  simp [bufTake, h]

@[simp] theorem length_inBytes (s : State) (n : Nat) : (inBytes s n).length = n := length_bufTake _ _

/-- Byte `j` after a word write (R56). -/
theorem bufByte_bufSetWord (b : Buffer) {k : Nat} (j : Nat) (v : Word) (hk : k < 16) :
    bufByte (bufSetWord b k v) j =
      if j / 4 = k then v.extractLsb' (8 * (j % 4)) 8 else bufByte b j := by
  unfold bufSetWord
  rw [bufByte_bufSet _ _ _ _ (by omega), bufByte_bufSet _ _ _ _ (by omega), bufByte_bufSet _ _ _ _ (by omega),
    bufByte_bufSet _ _ _ _ (by omega)]
  by_cases h : j / 4 = k
  · have : j % 4 = 0 ∨ j % 4 = 1 ∨ j % 4 = 2 ∨ j % 4 = 3 := by omega
    rcases this with h0 | h0 | h0 | h0
    · rw [if_neg (by omega), if_neg (by omega), if_neg (by omega), if_pos (by omega), if_pos h, h0]
    · rw [if_neg (by omega), if_neg (by omega), if_pos (by omega), if_pos h, h0]
    · rw [if_neg (by omega), if_pos (by omega), if_pos h, h0]
    · rw [if_pos (by omega), if_pos h, h0]
  · rw [if_neg (by omega), if_neg (by omega), if_neg (by omega), if_neg (by omega), if_neg h]

end Sys2Proof.Machine
end

