-- ==== Sys2Proof/Laws/Decode.lean ====
section
/-! SUPPORT. The fields of a word and the word of its fields (spec/30_encoding.md R70), and how the decoder's helpers
answer. -/

namespace Sys2Proof

/-- A bit of a slice of a word is that bit of the word. -/
theorem getLsbD_slice (w : Word) {a n i : Nat} (h1 : a ≤ i) (h2 : i < a + n) :
    (decide (i - a < n) && w.getLsbD (a + (i - a))) = w.getLsbD i := by
  rw [Nat.add_sub_cancel' h1, decide_eq_true (by omega), Bool.true_and]

/-- Bit `i` of a word, by the field it lies in (R70). -/
theorem getLsbD_wordOf (f : Fields) (i : Nat) :
    (wordOf f).getLsbD i =
      if i < 8 then f.op.getLsbD i
      else if i < 16 then f.len.getLsbD (i - 8)
      else if i < 24 then f.alen.getLsbD (i - 16)
      else if i < 25 then f.ts.getLsbD (i - 24)
      else if i < 26 then f.ca.getLsbD (i - 25)
      else f.rsv.getLsbD (i - 26) := by
  unfold wordOf
  simp only [BitVec.getLsbD_append]
  split_ifs <;> first | rfl | omega

/-- Bit `i` of a word made of bytes (spec/20_memory.md R53). -/
theorem getLsbD_wordOfBytes (b0 b1 b2 b3 : Byte) (i : Nat) :
    (wordOfBytes b0 b1 b2 b3).getLsbD i =
      if i < 8 then b0.getLsbD i
      else if i < 16 then b1.getLsbD (i - 8)
      else if i < 24 then b2.getLsbD (i - 16)
      else b3.getLsbD (i - 24) := by
  unfold wordOfBytes
  simp only [BitVec.getLsbD_append]
  split_ifs <;> first | rfl | omega

/-- No bit of the fields is lost in the word. -/
theorem fieldsOf_wordOf (f : Fields) : fieldsOf (wordOf f) = f := by
  obtain ⟨rsv, ca, ts, alen, len, op⟩ := f
  simp only [fieldsOf, Fields.mk.injEq]
  refine ⟨?_, ?_, ?_, ?_, ?_, ?_⟩ <;>
    · apply BitVec.eq_of_getLsbD_eq
      intro i hi
      simp only [BitVec.getLsbD_extractLsb', getLsbD_wordOf]
      split_ifs <;> first | omega | (simp [hi])

/-- No bit of the word is lost in its fields. -/
theorem wordOf_fieldsOf (w : Word) : wordOf (fieldsOf w) = w := by
  apply BitVec.eq_of_getLsbD_eq
  intro i hi
  simp only [getLsbD_wordOf, fieldsOf, BitVec.getLsbD_extractLsb']
  split_ifs <;> first | exact getLsbD_slice w (by omega) (by omega) | (simp; omega)

/-- Two words with the same fields are the same word. -/
theorem fieldsOf_injective {w w' : Word} (h : fieldsOf w = fieldsOf w') : w = w' := by
  rw [← wordOf_fieldsOf w, ← wordOf_fieldsOf w', h]

/-- The bytes of a word give it back (spec/20_memory.md R53). -/
theorem wordOfBytes_bytesOfWord (w : Word) :
    wordOfBytes (w.extractLsb' 0 8) (w.extractLsb' 8 8) (w.extractLsb' 16 8) (w.extractLsb' 24 8) = w := by
  apply BitVec.eq_of_getLsbD_eq
  intro i hi
  simp only [getLsbD_wordOfBytes, BitVec.getLsbD_extractLsb']
  split_ifs <;> first | exact getLsbD_slice w (by omega) (by omega) | (simp; omega)

theorem decodePlain_ok {f : Fields} {i j : Instr} :
    decodePlain f i = .ok j ↔ (f.len = 0 ∧ f.alen = 0 ∧ f.ts = 0 ∧ f.ca = 0) ∧ i = j := by
  unfold decodePlain; split <;> simp_all

theorem decodeLen_ok {f : Fields} {i : Nat → Instr} {j : Instr} :
    decodeLen f i = .ok j ↔ (f.alen = 0 ∧ f.ts = 0 ∧ f.ca = 0) ∧ i f.len.toNat = j := by
  unfold decodeLen; split <;> simp_all

theorem decodeTs_ok {f : Fields} {i0 i1 j : Instr} :
    decodeTs f i0 i1 = .ok j ↔ (f.len = 0 ∧ f.alen = 0 ∧ f.ca = 0) ∧ (if f.ts = 0 then i0 else i1) = j := by
  unfold decodeTs; split <;> simp_all

theorem decodeNanoid_ok {f : Fields} {j : Instr} :
    decodeNanoid f = .ok j ↔
      f.ts = 0 ∧ ((f.ca ≠ 0 ∧ .nanoidCa f.len.toNat f.alen.toNat = j) ∨
        (f.ca = 0 ∧ f.alen = 0 ∧ .nanoid f.len.toNat = j)) := by
  unfold decodeNanoid; split_ifs <;> simp_all

end Sys2Proof
end

