-- ==== Sys2Proof/Laws/Encoders.lean ====
section
/-! SUPPORT. Lengths of the rendered strings, and the base58 digits as digits in base 58 (spec/42_encoders.md). -/

namespace Sys2Proof.Machine

@[simp] theorem length_ascii (cs : List Char) : (ascii cs).length = cs.length := by simp [ascii]

@[simp] theorem length_hexByte (b : Byte) : (hexByte b).length = 2 := rfl

@[simp] theorem length_hex (bytes : List Byte) : (hex bytes).length = 2 * bytes.length := by
  induction bytes with
  | nil => rfl
  | cons b bs ih => simp [hex, hexByte] at ih ⊢; omega

@[simp] theorem length_uuidPattern (b : List Byte) : (uuidPattern b).length = b.length := by simp [uuidPattern]

/-- A UUID string has 36 characters (R142). -/
theorem length_uuidRender {b : List Byte} (h : b.length = 16) : (uuidRender b).length = 36 := by
  simp [uuidRender, slice, h]

@[simp] theorem length_ulidRender (ts : BitVec 48) (r : List Byte) : (ulidRender ts r).length = 26 := by
  simp [ulidRender]

@[simp] theorem length_beBytes (w : Word) : (beBytes w).length = 4 := rfl

theorem length_objIdRender (ts : Word) {b : List Byte} (h : b.length = 8) : (objIdRender ts b).length = 24 := by
  simp [objIdRender, h]

/-- The digits the loop makes are the base-58 digits of the number (R152). -/
theorem base58Loop_eq_digits : ∀ (fuel n : Nat) (acc : List Char), n ≤ fuel →
    base58Loop fuel n acc = (Nat.digits 58 n).reverse.map (charAt b58) ++ acc
  | 0, n, acc, h => by
    obtain rfl : n = 0 := by omega
    simp [base58Loop]
  | fuel + 1, n, acc, h => by
    unfold base58Loop
    split
    · rename_i hn
      rw [base58Loop_eq_digits fuel (n / 58) _ (by omega), Nat.digits_def' (by norm_num) hn]
      simp
    · obtain rfl : n = 0 := by omega
      simp

theorem base58Digits_eq (n : Nat) : base58Digits n = (Nat.digits 58 n).reverse.map (charAt b58) := by
  rw [base58Digits, base58Loop_eq_digits n n [] le_rfl, List.append_nil]

theorem length_base58Digits (n : Nat) : (base58Digits n).length = (Nat.digits 58 n).length := by
  simp [base58Digits_eq]

theorem foldl_be (bytes : List Byte) (n : Nat) :
    bytes.foldl (fun n b => n * 256 + b.toNat) n = n * 256 ^ bytes.length + beValue bytes := by
  induction bytes generalizing n with
  | nil => simp [beValue]
  | cons b bs ih =>
    simp only [List.foldl_cons, beValue, List.length_cons]
    rw [ih, ih (0 * 256 + b.toNat)]
    ring

theorem beValue_cons (b : Byte) (bs : List Byte) : beValue (b :: bs) = b.toNat * 256 ^ bs.length + beValue bs := by
  rw [beValue, List.foldl_cons, foldl_be]
  simp

theorem beValue_lt (bytes : List Byte) : beValue bytes < 256 ^ bytes.length := by
  induction bytes with
  | nil => simp [beValue]
  | cons b bs ih =>
    rw [beValue_cons, List.length_cons, pow_succ]
    have := b.isLt
    nlinarith [Nat.pos_of_ne_zero (pow_ne_zero bs.length (by norm_num : (256 : Nat) ≠ 0))]

theorem leadingZeros_le (b : List Byte) : leadingZeros b ≤ b.length :=
  List.IsPrefix.length_le (List.takeWhile_prefix _)

/-- Leading zero bytes lower the bound on the value. -/
theorem beValue_lt_of_leadingZeros (b : List Byte) : beValue b < 256 ^ (b.length - leadingZeros b) := by
  induction b with
  | nil => simp [beValue]
  | cons x xs ih =>
    by_cases hx : x = 0
    · subst hx
      have : leadingZeros ((0 : Byte) :: xs) = leadingZeros xs + 1 := by simp [leadingZeros]
      rw [this, beValue_cons, List.length_cons, Nat.add_sub_add_right]
      simpa using ih
    · have : leadingZeros (x :: xs) = 0 := by
        rw [leadingZeros, List.takeWhile_cons_of_neg (by simpa using hx), List.length_nil]
      rw [this, Nat.sub_zero]
      exact beValue_lt _

/-- A base58 string is at most twice as long as its bytes, and never empty. -/
theorem length_base58_le (b : List Byte) : (base58 b).length ≤ max 1 (2 * b.length) := by
  have hd : (Nat.digits 58 (beValue b)).length ≤ 2 * (b.length - leadingZeros b) := by
    rw [Nat.digits_length_le_iff (by norm_num)]
    calc beValue b < 256 ^ (b.length - leadingZeros b) := beValue_lt_of_leadingZeros b
      _ ≤ (58 ^ 2) ^ (b.length - leadingZeros b) := Nat.pow_le_pow_left (by norm_num) _
      _ = 58 ^ (2 * (b.length - leadingZeros b)) := by rw [← pow_mul]
  have hz := leadingZeros_le b
  simp only [base58]
  split
  · simp
  · rw [List.length_append, List.length_replicate, length_base58Digits]
    omega

@[simp] theorem length_codeBytes (ds : List Nat) (c : Nat) : (codeBytes ds c).length = ds.length + 1 := by
  simp [codeBytes]

@[simp] theorem length_inDigits (s : State) (n : Nat) : (inDigits s n).length = n := by simp [inDigits, inBytes, bufTake]

end Sys2Proof.Machine
end

