-- ==== Sys2Proof/Laws/Sampler.lean ====
section
/-! SUPPORT. The draws of the engine as a stream (spec/40_engine.md R108) and what the sampler's loop answers on it
(spec/41_sampler.md R120). -/

namespace Sys2Proof.Machine

theorem weyl_eq : weyl = 0x6D2B79F5#32 := by decide

theorem weyl_toNat : weyl.toNat = 0x6D2B79F5 := by decide

@[simp] theorem kthState_zero (u : Word) : kthState u 0 = u := by simp [kthState]

theorem kthState_succ (u : Word) (k : Nat) : kthState u (k + 1) = advance (kthState u k) := by
  simp only [kthState, advance, weyl, BitVec.ofNat_add, BitVec.add_mul]
  ac_rfl

theorem kthState_add (u : Word) (j k : Nat) : kthState (kthState u j) k = kthState u (j + k) := by
  simp only [kthState, BitVec.ofNat_add, BitVec.add_mul]
  ac_rfl

theorem kthState_one (u : Word) : kthState u 1 = advance u := by rw [kthState_succ, kthState_zero]

/-- One draw moves `STATE` by `WEYL` (R100). -/
theorem kthState_one_add (u : Word) : kthState u 1 = u + 0x6D2B79F5#32 := by rw [kthState_one, advance, weyl_eq]

theorem kthState_advance (u : Word) (k : Nat) : kthState (advance u) k = kthState u (k + 1) := by
  rw [← kthState_one, kthState_add, Nat.add_comm]

/-- One more draw after `k` draws. -/
theorem draw_kthState (v : MixerVariant) (u : Word) (k : Nat) :
    draw v (kthState u k) = (kthDraw v u (k + 1), kthState u (k + 1)) := by
  simp only [draw, kthDraw, kthState_succ]

theorem draw_eq (v : MixerVariant) (u : Word) : draw v u = (kthDraw v u 1, kthState u 1) := by
  simpa using draw_kthState v u 0

theorem kthDraw_kthState (v : MixerVariant) (u : Word) (j k : Nat) :
    kthDraw v (kthState u j) k = kthDraw v u (j + k) := by
  simp only [kthDraw, kthState_add]

/-- The loop on any stream: if the draw after `k` others is the first one below the limit, it is the one reduced. -/
theorem sampleLoop_accepts {σ : Type} (next : σ → Word × σ) (lo : Int) (span : Nat) :
    ∀ (fuel k : Nat) (st : σ), k < fuel →
      (∀ j < k, limitOf span ≤ (next ((fun x => (next x).2)^[j] st)).1.toNat) →
      (next ((fun x => (next x).2)^[k] st)).1.toNat < limitOf span →
      sampleLoop next lo span fuel st =
        (lo + ((next ((fun x => (next x).2)^[k] st)).1.toNat % span : Nat), (next ((fun x => (next x).2)^[k] st)).2)
  | 0, _, _, hk, _, _ => absurd hk (by omega)
  | fuel + 1, 0, st, _, _, hacc => by
    simp only [Function.iterate_zero, id_eq] at hacc
    simp [sampleLoop, hacc]
  | fuel + 1, k + 1, st, hk, hrej, hacc => by
    have h0 := hrej 0 (by omega)
    simp only [Function.iterate_zero, id_eq] at h0
    rw [sampleLoop, if_neg (by omega)]
    simp only [Function.iterate_succ, Function.comp_apply] at hacc ⊢
    exact sampleLoop_accepts next lo span fuel k _ (by omega)
      (fun j hj => by simpa [Function.iterate_succ] using hrej (j + 1) (by omega)) hacc

theorem iterate_draw (v : MixerVariant) (u : Word) (k : Nat) : (fun x => (draw v x).2)^[k] u = kthState u k := by
  induction k with
  | zero => simp
  | succ k ih => rw [Function.iterate_succ_apply', ih, draw_kthState]

/-- The loop on the engine. -/
theorem sampleLoop_draw (v : MixerVariant) (lo : Int) (span fuel k : Nat) (u : Word) (hk : k < fuel)
    (hrej : ∀ j < k, limitOf span ≤ (kthDraw v u (j + 1)).toNat)
    (hacc : (kthDraw v u (k + 1)).toNat < limitOf span) :
    sampleLoop (draw v) lo span fuel u = (lo + ((kthDraw v u (k + 1)).toNat % span : Nat), kthState u (k + 1)) := by
  have h := sampleLoop_accepts (draw v) lo span fuel k u hk
    (fun j hj => by rw [iterate_draw, draw_kthState]; exact hrej j hj)
    (by rw [iterate_draw, draw_kthState]; exact hacc)
  rwa [iterate_draw, draw_kthState] at h

/-- A limit of `2^32` accepts the first draw (R122). -/
theorem sampleInt_of_limit (v : MixerVariant) (lo hi : Int) (u : Word) {n : Nat} (hs : spanOf lo hi = n) (hn : n ≠ 0)
    (hl : limitOf n = 2 ^ 32) :
    sampleInt v lo hi u = (lo + ((kthDraw v u 1).toNat % n : Nat), kthState u 1) := by
  rw [sampleInt, sampleStream, hs, if_neg hn]
  exact sampleLoop_draw v lo n _ 0 u (by norm_num) (by omega) (by rw [hl]; exact (kthDraw v u 1).isLt)

/-- The degenerate span draws nothing (R121). -/
theorem sampleInt_of_span_zero (v : MixerVariant) (lo hi : Int) (u : Word) (hs : spanOf lo hi = 0) :
    sampleInt v lo hi u = (lo, u) := by
  rw [sampleInt, sampleStream, if_pos hs]

@[simp] theorem length_repeatDraw {α : Type} (f : Word → α × Word) (n : Nat) (u : Word) :
    (repeatDraw f n u).1.length = n := by
  induction n generalizing u with
  | zero => rfl
  | succ n ih => simp [repeatDraw, ih]

/-- An operation that makes exactly one draw, `n` times. -/
theorem repeatDraw_one_draw_each {α : Type} (f : Word → α × Word) (g : Word → α) (hf : ∀ u, f u = (g u, kthState u 1))
    (n : Nat) (u : Word) :
    repeatDraw f n u = ((List.range n).map fun i => g (kthState u i), kthState u n) := by
  induction n generalizing u with
  | zero => simp [repeatDraw]
  | succ n ih =>
    simp only [repeatDraw, hf, ih, kthState_add]
    simp only [List.range_succ_eq_map, List.map_cons, List.map_map, kthState_zero, Nat.add_comm 1]
    rfl

@[simp] theorem length_drawBytes (v : MixerVariant) (n : Nat) (u : Word) : (drawBytes v n u).1.length = n :=
  length_repeatDraw _ _ _

@[simp] theorem length_drawSymbols (v : MixerVariant) (alpha : List Byte) (n : Nat) (u : Word) :
    (drawSymbols v alpha n u).1.length = n :=
  length_repeatDraw _ _ _

end Sys2Proof.Machine
end

