-- ==== Sys2Proof/Laws/State.lean ====
section
/-! SUPPORT. What each named update of State does to each field. -/

namespace Sys2Proof.Machine

/-! ### setRng -/

@[simp] theorem setRng_rng (s : State) (w : Word) : (setRng s w).rng = w := rfl
@[simp] theorem setRng_opa (s : State) (w : Word) : (setRng s w).opa = s.opa := rfl
@[simp] theorem setRng_opb (s : State) (w : Word) : (setRng s w).opb = s.opb := rfl
@[simp] theorem setRng_res (s : State) (w : Word) : (setRng s w).res = s.res := rfl
@[simp] theorem setRng_outlen (s : State) (w : Word) : (setRng s w).outlen = s.outlen := rfl
@[simp] theorem setRng_out (s : State) (w : Word) : (setRng s w).out = s.out := rfl
@[simp] theorem setRng_inp (s : State) (w : Word) : (setRng s w).inp = s.inp := rfl
@[simp] theorem setRng_cmd (s : State) (w : Word) : (setRng s w).cmd = s.cmd := rfl
@[simp] theorem setRng_status (s : State) (w : Word) : (setRng s w).status = s.status := rfl
@[simp] theorem setRng_params (s : State) (w : Word) : (setRng s w).params = s.params := rfl
@[simp] theorem setRng_pending (s : State) (w : Word) : (setRng s w).pending = s.pending := rfl
@[simp] theorem setRng_readLog (s : State) (w : Word) : (setRng s w).readLog = s.readLog := rfl
@[simp] theorem setRng_owner (s : State) (w : Word) : (setRng s w).owner = s.owner := rfl
@[simp] theorem setRng_freeCount (s : State) (w : Word) : (setRng s w).freeCount = s.freeCount := rfl

/-! ### complete -/

@[simp] theorem complete_rng (s : State) (r : DWord) (b : List Byte) : (complete s r b).rng = s.rng := rfl
@[simp] theorem complete_opa (s : State) (r : DWord) (b : List Byte) : (complete s r b).opa = s.opa := rfl
@[simp] theorem complete_opb (s : State) (r : DWord) (b : List Byte) : (complete s r b).opb = s.opb := rfl
@[simp] theorem complete_res (s : State) (r : DWord) (b : List Byte) : (complete s r b).res = r := rfl
@[simp] theorem complete_outlen (s : State) (r : DWord) (b : List Byte) : (complete s r b).outlen = BitVec.ofNat 8 b.length := rfl
@[simp] theorem complete_out (s : State) (r : DWord) (b : List Byte) : (complete s r b).out = bufOfBytes b := rfl
@[simp] theorem complete_inp (s : State) (r : DWord) (b : List Byte) : (complete s r b).inp = s.inp := rfl
@[simp] theorem complete_cmd (s : State) (r : DWord) (b : List Byte) : (complete s r b).cmd = s.cmd := rfl
@[simp] theorem complete_status (s : State) (r : DWord) (b : List Byte) : (complete s r b).status = s.status.succeed := rfl
@[simp] theorem complete_params (s : State) (r : DWord) (b : List Byte) : (complete s r b).params = s.params := rfl
@[simp] theorem complete_pending (s : State) (r : DWord) (b : List Byte) : (complete s r b).pending = s.pending := rfl
@[simp] theorem complete_readLog (s : State) (r : DWord) (b : List Byte) : (complete s r b).readLog = s.readLog := rfl
@[simp] theorem complete_owner (s : State) (r : DWord) (b : List Byte) : (complete s r b).owner = s.owner := rfl
@[simp] theorem complete_freeCount (s : State) (r : DWord) (b : List Byte) : (complete s r b).freeCount = s.freeCount := rfl

/-! ### completeNoResult -/

@[simp] theorem completeNoResult_rng (s : State) : (completeNoResult s).rng = s.rng := rfl
@[simp] theorem completeNoResult_opa (s : State) : (completeNoResult s).opa = s.opa := rfl
@[simp] theorem completeNoResult_opb (s : State) : (completeNoResult s).opb = s.opb := rfl
@[simp] theorem completeNoResult_res (s : State) : (completeNoResult s).res = s.res := rfl
@[simp] theorem completeNoResult_outlen (s : State) : (completeNoResult s).outlen = s.outlen := rfl
@[simp] theorem completeNoResult_out (s : State) : (completeNoResult s).out = s.out := rfl
@[simp] theorem completeNoResult_inp (s : State) : (completeNoResult s).inp = s.inp := rfl
@[simp] theorem completeNoResult_cmd (s : State) : (completeNoResult s).cmd = s.cmd := rfl
@[simp] theorem completeNoResult_status (s : State) : (completeNoResult s).status = s.status.succeed := rfl
@[simp] theorem completeNoResult_params (s : State) : (completeNoResult s).params = s.params := rfl
@[simp] theorem completeNoResult_pending (s : State) : (completeNoResult s).pending = s.pending := rfl
@[simp] theorem completeNoResult_readLog (s : State) : (completeNoResult s).readLog = s.readLog := rfl
@[simp] theorem completeNoResult_owner (s : State) : (completeNoResult s).owner = s.owner := rfl
@[simp] theorem completeNoResult_freeCount (s : State) : (completeNoResult s).freeCount = s.freeCount := rfl

/-! ### fail -/

@[simp] theorem fail_rng (s : State) (c : ErrorCode) : (fail s c).rng = s.rng := rfl
@[simp] theorem fail_opa (s : State) (c : ErrorCode) : (fail s c).opa = s.opa := rfl
@[simp] theorem fail_opb (s : State) (c : ErrorCode) : (fail s c).opb = s.opb := rfl
@[simp] theorem fail_res (s : State) (c : ErrorCode) : (fail s c).res = s.res := rfl
@[simp] theorem fail_outlen (s : State) (c : ErrorCode) : (fail s c).outlen = s.outlen := rfl
@[simp] theorem fail_out (s : State) (c : ErrorCode) : (fail s c).out = s.out := rfl
@[simp] theorem fail_inp (s : State) (c : ErrorCode) : (fail s c).inp = s.inp := rfl
@[simp] theorem fail_cmd (s : State) (c : ErrorCode) : (fail s c).cmd = s.cmd := rfl
@[simp] theorem fail_status (s : State) (c : ErrorCode) : (fail s c).status = s.status.failWith c := rfl
@[simp] theorem fail_params (s : State) (c : ErrorCode) : (fail s c).params = s.params := rfl
@[simp] theorem fail_pending (s : State) (c : ErrorCode) : (fail s c).pending = s.pending := rfl
@[simp] theorem fail_readLog (s : State) (c : ErrorCode) : (fail s c).readLog = s.readLog := rfl
@[simp] theorem fail_owner (s : State) (c : ErrorCode) : (fail s c).owner = s.owner := rfl
@[simp] theorem fail_freeCount (s : State) (c : ErrorCode) : (fail s c).freeCount = s.freeCount := rfl

/-! ### completeCode -/

@[simp] theorem completeCode_rng (s : State) (ds : List Nat) (c : Nat) : (completeCode s ds c).rng = s.rng := rfl
@[simp] theorem completeCode_opa (s : State) (ds : List Nat) (c : Nat) : (completeCode s ds c).opa = s.opa := rfl
@[simp] theorem completeCode_opb (s : State) (ds : List Nat) (c : Nat) : (completeCode s ds c).opb = s.opb := rfl
@[simp] theorem completeCode_res (s : State) (ds : List Nat) (c : Nat) : (completeCode s ds c).res = BitVec.ofNat 64 c := rfl
@[simp] theorem completeCode_outlen (s : State) (ds : List Nat) (c : Nat) : (completeCode s ds c).outlen = BitVec.ofNat 8 (codeBytes ds c).length := rfl
@[simp] theorem completeCode_out (s : State) (ds : List Nat) (c : Nat) : (completeCode s ds c).out = bufOfBytes (codeBytes ds c) := rfl
@[simp] theorem completeCode_inp (s : State) (ds : List Nat) (c : Nat) : (completeCode s ds c).inp = s.inp := rfl
@[simp] theorem completeCode_cmd (s : State) (ds : List Nat) (c : Nat) : (completeCode s ds c).cmd = s.cmd := rfl
@[simp] theorem completeCode_status (s : State) (ds : List Nat) (c : Nat) : (completeCode s ds c).status = s.status.succeed := rfl
@[simp] theorem completeCode_params (s : State) (ds : List Nat) (c : Nat) : (completeCode s ds c).params = s.params := rfl
@[simp] theorem completeCode_pending (s : State) (ds : List Nat) (c : Nat) : (completeCode s ds c).pending = s.pending := rfl
@[simp] theorem completeCode_readLog (s : State) (ds : List Nat) (c : Nat) : (completeCode s ds c).readLog = s.readLog := rfl
@[simp] theorem completeCode_owner (s : State) (ds : List Nat) (c : Nat) : (completeCode s ds c).owner = s.owner := rfl
@[simp] theorem completeCode_freeCount (s : State) (ds : List Nat) (c : Nat) : (completeCode s ds c).freeCount = s.freeCount := rfl

/-! ### STATUS -/

@[simp] theorem Status.succeed_busy (st : Status) : (st.succeed).busy = st.busy := rfl
@[simp] theorem Status.succeed_err (st : Status) : (st.succeed).err = false := rfl
@[simp] theorem Status.succeed_everErr (st : Status) : (st.succeed).everErr = st.everErr := rfl
@[simp] theorem Status.succeed_code (st : Status) : (st.succeed).code = 0 := rfl
@[simp] theorem Status.failWith_busy (st : Status) (c : ErrorCode) : (st.failWith c).busy = st.busy := rfl
@[simp] theorem Status.failWith_err (st : Status) (c : ErrorCode) : (st.failWith c).err = true := rfl
@[simp] theorem Status.failWith_everErr (st : Status) (c : ErrorCode) : (st.failWith c).everErr = true := rfl
@[simp] theorem Status.failWith_code (st : Status) (c : ErrorCode) : (st.failWith c).code = c.bits := rfl

/-! ### The claims' terms

Proved by cases, not by `rfl`, so that `simp` rewrites with them and the kernel need not unfold the draws to check it. -/

/-- A committed state is `complete` after the draws. -/
theorem complete_setRng (s : State) (w : Word) (r : DWord) (b : List Byte) :
    complete (setRng s w) r b = committed s w r b := by cases s; rfl

/-- A pure command commits with `STATE` as it was. -/
theorem complete_eq_committed (s : State) (r : DWord) (b : List Byte) : complete s r b = committed s s.rng r b := by
  cases s; rfl

theorem fail_eq_failed (s : State) (c : ErrorCode) : fail s c = failed s c.bits := by cases s; rfl

/-- The error codes are 1 to 4 (R200). -/
theorem ErrorCode.bits_range (c : ErrorCode) : 1 ≤ c.bits.toNat ∧ c.bits.toNat ≤ 4 := by
  cases c <;> decide

end Sys2Proof.Machine
end

