-- ==== Sys2Proof/Laws/Exec.lean ====
section
/-! SUPPORT. Everything a command and a step can do, said once. -/

namespace Sys2Proof.Machine

/-- What a command's answer can be: SEED's state, a failed state, or a committed one with at most 64 bytes. -/
inductive Answers (s : State) : Result → Prop
  | seeded : Answers s (.next (completeNoResult (setRng s (opaLow s))))
  | failed (c : ErrorCode) : Answers s (.next (fail s c))
  | committed (rng : Word) (res : DWord) (bytes : List Byte) (h : bytes.length ≤ 64) :
      Answers s (.next (complete (setRng s rng) res bytes))

/-- A command that draws nothing leaves `STATE` as it was. -/
theorem Answers.pure {s : State} (res : DWord) (bytes : List Byte) (h : bytes.length ≤ 64) :
    Answers s (.next (complete s res bytes)) := .committed s.rng res bytes h

/-- The inversion lemma of `exec`. -/
theorem exec_answers (i : Instr) (s : State) : Answers s (exec i s) := by
  cases i with
  | seed => exact .seeded
  | nextU32 => exact .committed _ _ _ (by simp)
  | nextF64 => exact .committed _ _ _ (by simp)
  | intIncl =>
    simp only [exec, execIntIncl]
    split
    · exact .failed _
    · exact .committed _ _ _ (by simp)
  | intBig =>
    simp only [exec, execIntBig]
    split
    · exact .failed _
    · exact .committed _ _ _ (by simp)
  | drawBytes len =>
    simp only [exec, execDrawBytes]
    split
    · exact .failed _
    · exact .committed _ _ _ (by simp; omega)
  | uuid4Gen => exact .committed _ _ _ (by rw [length_ascii, length_uuidRender (by simp)]; omega)
  | uuid4Enc => exact .pure _ _ (by rw [length_ascii, length_uuidRender (by simp)]; omega)
  | ulidGen => exact .committed _ _ _ (by simp)
  | ulidGenTs => exact .committed _ _ _ (by simp)
  | ulidEnc => exact .pure _ _ (by simp)
  | suuidGen =>
    refine .committed _ _ _ ?_
    rw [length_ascii]
    exact (length_base58_le _).trans (by simp)
  | b58Enc len =>
    simp only [exec, execB58Enc]
    split
    · exact .failed _
    · refine .pure _ _ ?_
      rw [length_ascii]
      exact (length_base58_le _).trans (by simp; omega)
  | nanoid len =>
    simp only [exec, execNanoid]
    split
    · exact .failed _
    · exact .committed _ _ _ (by simp; omega)
  | nanoidCa len alen =>
    simp only [exec, execNanoidCa]
    split
    · exact .failed _
    · split
      · exact .failed _
      · exact .committed _ _ _ (by simp; omega)
  | objidGen => exact .committed _ _ _ (by rw [length_ascii, length_objIdRender _ (by simp)]; omega)
  | objidGenTs => exact .committed _ _ _ (by rw [length_ascii, length_objIdRender _ (by simp)]; omega)
  | objidEnc => exact .pure _ _ (by rw [length_ascii, length_objIdRender _ (by simp)]; omega)
  | upcChk =>
    simp only [exec, execUpcChk]
    split
    · exact .pure _ _ (by simp)
    · exact .failed _
  | eanChk =>
    simp only [exec, execEanChk]
    split
    · exact .pure _ _ (by simp)
    · exact .failed _
  | upcGen => exact .committed _ _ _ (by simp)
  | eanGen => exact .committed _ _ _ (by simp)

/-- The inversion lemma of `execute`: a legal word's command, or a failure. -/
theorem execute_answers (w : Word) (s : State) : Answers s (execute w s) := by
  unfold execute
  split
  · exact exec_answers _ _
  · exact .failed _

end Sys2Proof.Machine
end

