-- ==== Sys2Proof/Laws/PerInstr.lean ====
section
/-! SUPPORT. The statements made per instruction: the fields of an encoded command are those its row gives it
(spec/30_encoding.md R70, R73). -/

namespace Sys2Proof.Laws.EncodeFields

/-- The word of a command holds exactly the fields its row and its operands give it. -/
def Statement (i : Instr) : Prop := fieldsOf (encode i) = i.fields

theorem seed : Statement .seed := fieldsOf_wordOf _
theorem nextU32 : Statement .nextU32 := fieldsOf_wordOf _
theorem nextF64 : Statement .nextF64 := fieldsOf_wordOf _
theorem intIncl : Statement .intIncl := fieldsOf_wordOf _
theorem intBig : Statement .intBig := fieldsOf_wordOf _
theorem drawBytes (len : Nat) : Statement (.drawBytes len) := fieldsOf_wordOf _
theorem uuid4Gen : Statement .uuid4Gen := fieldsOf_wordOf _
theorem uuid4Enc : Statement .uuid4Enc := fieldsOf_wordOf _
theorem ulidGen : Statement .ulidGen := fieldsOf_wordOf _
theorem ulidGenTs : Statement .ulidGenTs := fieldsOf_wordOf _
theorem ulidEnc : Statement .ulidEnc := fieldsOf_wordOf _
theorem suuidGen : Statement .suuidGen := fieldsOf_wordOf _
theorem b58Enc (len : Nat) : Statement (.b58Enc len) := fieldsOf_wordOf _
theorem nanoid (len : Nat) : Statement (.nanoid len) := fieldsOf_wordOf _
theorem nanoidCa (len alen : Nat) : Statement (.nanoidCa len alen) := fieldsOf_wordOf _
theorem objidGen : Statement .objidGen := fieldsOf_wordOf _
theorem objidGenTs : Statement .objidGenTs := fieldsOf_wordOf _
theorem objidEnc : Statement .objidEnc := fieldsOf_wordOf _
theorem upcChk : Statement .upcChk := fieldsOf_wordOf _
theorem eanChk : Statement .eanChk := fieldsOf_wordOf _
theorem upcGen : Statement .upcGen := fieldsOf_wordOf _
theorem eanGen : Statement .eanGen := fieldsOf_wordOf _

end Sys2Proof.Laws.EncodeFields
end

