-- ==== Sys2Proof/Laws/Window.lean ====
section
/-! SUPPORT. What a write to the window leaves unchanged (spec/20_memory.md R51, R55). -/

namespace Sys2Proof.Machine

@[simp] theorem memStore_rng (s : State) (o : Nat) (v : Word) : (memStore s o v).rng = s.rng := by
  unfold memStore; split_ifs <;> rfl
@[simp] theorem memStore_res (s : State) (o : Nat) (v : Word) : (memStore s o v).res = s.res := by
  unfold memStore; split_ifs <;> rfl
@[simp] theorem memStore_outlen (s : State) (o : Nat) (v : Word) : (memStore s o v).outlen = s.outlen := by
  unfold memStore; split_ifs <;> rfl
@[simp] theorem memStore_out (s : State) (o : Nat) (v : Word) : (memStore s o v).out = s.out := by
  unfold memStore; split_ifs <;> rfl
@[simp] theorem memStore_status (s : State) (o : Nat) (v : Word) : (memStore s o v).status = s.status := by
  unfold memStore; split_ifs <;> rfl
@[simp] theorem memStore_params (s : State) (o : Nat) (v : Word) : (memStore s o v).params = s.params := by
  unfold memStore; split_ifs <;> rfl
@[simp] theorem memStore_pending (s : State) (o : Nat) (v : Word) : (memStore s o v).pending = s.pending := by
  unfold memStore; split_ifs <;> rfl
@[simp] theorem memStore_readLog (s : State) (o : Nat) (v : Word) : (memStore s o v).readLog = s.readLog := by
  unfold memStore; split_ifs <;> rfl
@[simp] theorem memStore_owner (s : State) (o : Nat) (v : Word) : (memStore s o v).owner = s.owner := by
  unfold memStore; split_ifs <;> rfl
@[simp] theorem memStore_freeCount (s : State) (o : Nat) (v : Word) : (memStore s o v).freeCount = s.freeCount := by
  unfold memStore; split_ifs <;> rfl

/-! ### One lemma per word -/

@[simp] theorem memRead_cmd (s : State) : memRead s 0x000 = s.cmd := rfl
@[simp] theorem memRead_status (s : State) : memRead s 0x004 = s.status.word := rfl
@[simp] theorem memRead_state (s : State) : memRead s 0x008 = s.rng := rfl
@[simp] theorem memRead_outlen (s : State) : memRead s 0x00C = s.outlen.setWidth 32 := rfl
@[simp] theorem memRead_opaLo (s : State) : memRead s 0x010 = s.opa.extractLsb' 0 32 := rfl
@[simp] theorem memRead_opaHi (s : State) : memRead s 0x014 = s.opa.extractLsb' 32 32 := rfl
@[simp] theorem memRead_opbLo (s : State) : memRead s 0x018 = s.opb.extractLsb' 0 32 := rfl
@[simp] theorem memRead_opbHi (s : State) : memRead s 0x01C = s.opb.extractLsb' 32 32 := rfl
@[simp] theorem memRead_resLo (s : State) : memRead s 0x020 = s.res.extractLsb' 0 32 := rfl
@[simp] theorem memRead_resHi (s : State) : memRead s 0x024 = s.res.extractLsb' 32 32 := rfl

/-- Word `k` of `IN` (R53). -/
theorem memRead_in (s : State) {k : Nat} (hk : k < 16) : memRead s (0x040 + 4 * k) = bufWord s.inp k := by
  unfold memRead
  repeat rw [if_neg (by omega)]
  rw [if_pos (by omega)]
  congr 1
  omega

/-- Word `k` of `OUT` (R53). -/
theorem memRead_out (s : State) {k : Nat} (hk : k < 16) : memRead s (0x080 + 4 * k) = bufWord s.out k := by
  unfold memRead
  repeat rw [if_neg (by omega)]
  rw [if_pos (by omega)]
  congr 1
  omega

/-- A reserved word reads 0 (R51, R54). -/
theorem memRead_reserved (s : State) {o : Nat} (h : (0x028 ≤ o ∧ o ≤ 0x03F) ∨ 0x0C0 ≤ o) : memRead s o = 0 := by
  unfold memRead
  repeat rw [if_neg (by omega)]

/-- The words of the window (R51). -/
theorem window_cases {o : Nat} (ho : o < 0x100) (h4 : o % 4 = 0) :
    o = 0x000 ∨ o = 0x004 ∨ o = 0x008 ∨ o = 0x00C ∨ o = 0x010 ∨ o = 0x014 ∨ o = 0x018 ∨ o = 0x01C ∨ o = 0x020 ∨
      o = 0x024 ∨ (∃ k < 16, o = 0x040 + 4 * k) ∨ (∃ k < 16, o = 0x080 + 4 * k) ∨
      ((0x028 ≤ o ∧ o ≤ 0x03F) ∨ 0x0C0 ≤ o) := by
  by_cases h1 : 0x040 ≤ o ∧ o < 0x080
  · exact .inr (.inr (.inr (.inr (.inr (.inr (.inr (.inr (.inr (.inr (.inl ⟨(o - 0x040) / 4, by omega, by omega⟩))))))))))
  by_cases h2 : 0x080 ≤ o ∧ o < 0x0C0
  · exact .inr (.inr (.inr (.inr (.inr (.inr (.inr (.inr (.inr (.inr (.inr
      (.inl ⟨(o - 0x080) / 4, by omega, by omega⟩)))))))))))
  omega

@[simp] theorem memStore_cmdWord (s : State) (v : Word) : memStore s 0x000 v = { s with cmd := v } := rfl
@[simp] theorem memStore_opaLo (s : State) (v : Word) : memStore s 0x010 v = { s with opa := setLow s.opa v } := rfl
@[simp] theorem memStore_opaHi (s : State) (v : Word) : memStore s 0x014 v = { s with opa := setHigh s.opa v } := rfl
@[simp] theorem memStore_opbLo (s : State) (v : Word) : memStore s 0x018 v = { s with opb := setLow s.opb v } := rfl
@[simp] theorem memStore_opbHi (s : State) (v : Word) : memStore s 0x01C v = { s with opb := setHigh s.opb v } := rfl

/-- A write to word `k` of `IN` (R56). -/
theorem memStore_in (s : State) (v : Word) {k : Nat} (hk : k < 16) :
    memStore s (0x040 + 4 * k) v = { s with inp := bufSetWord s.inp k v } := by
  unfold memStore
  repeat rw [if_neg (by omega)]
  rw [if_pos (by omega), Nat.add_sub_cancel_left, Nat.mul_div_cancel_left _ (by decide)]

/-- A read-only or reserved word ignores a write (R55). -/
theorem memStore_ignored (s : State) {o : Nat} (v : Word) (h0 : o ≠ 0) (h1 : ¬ (0x010 ≤ o ∧ o ≤ 0x01C))
    (h2 : ¬ (0x040 ≤ o ∧ o ≤ 0x07C)) : memStore s o v = s := by
  unfold memStore
  repeat rw [if_neg (by omega)]

theorem isReadWrite_eq_true {o : Nat} :
    isReadWrite o = true ↔ o = 0x000 ∨ (0x010 ≤ o ∧ o ≤ 0x01C) ∨ (0x040 ≤ o ∧ o ≤ 0x07C) := by simp [isReadWrite]

/-- A write to a word that is not R/W stores nothing (R51, R55). -/
theorem memStore_of_not_readWrite (s : State) {o : Nat} (v : Word) (h : isReadWrite o = false) : memStore s o v = s := by
  have h' : ¬ isReadWrite o = true := by simp [h]
  rw [isReadWrite_eq_true] at h'
  exact memStore_ignored s v (by omega) (by omega) (by omega)

/-! ### `STATUS` as read (R37) -/

/-- Bit `i` of the word at `0x004`. -/
theorem getLsbD_statusWord (st : Status) (i : Nat) :
    st.word.getLsbD i =
      if i = 0 then st.busy else if i = 1 then st.err else if i = 2 then st.everErr
      else if 8 ≤ i ∧ i < 16 then st.code.getLsbD (i - 8) else false := by
  unfold Status.word
  simp only [BitVec.getLsbD_append, BitVec.getLsbD_ofBool]
  split_ifs <;> first | rfl | omega | simp_all

/-! ### The halves of a 64-bit register (R53) -/

theorem setLow_low (x : DWord) (v : Word) : (setLow x v).extractLsb' 0 32 = v := by
  apply BitVec.eq_of_getLsbD_eq
  intro i hi
  rw [setLow, BitVec.getLsbD_extractLsb', BitVec.getLsbD_append]
  simp [hi]

theorem setLow_high (x : DWord) (v : Word) : (setLow x v).extractLsb' 32 32 = x.extractLsb' 32 32 := by
  apply BitVec.eq_of_getLsbD_eq
  intro i hi
  rw [setLow, BitVec.getLsbD_extractLsb', BitVec.getLsbD_append]
  simp [hi]

theorem setHigh_low (x : DWord) (v : Word) : (setHigh x v).extractLsb' 0 32 = x.extractLsb' 0 32 := by
  apply BitVec.eq_of_getLsbD_eq
  intro i hi
  rw [setHigh, BitVec.getLsbD_extractLsb', BitVec.getLsbD_append]
  simp [hi]

theorem setHigh_high (x : DWord) (v : Word) : (setHigh x v).extractLsb' 32 32 = v := by
  apply BitVec.eq_of_getLsbD_eq
  intro i hi
  rw [setHigh, BitVec.getLsbD_extractLsb', BitVec.getLsbD_append]
  simp [hi]

end Sys2Proof.Machine
end

