-- ==== Sys2Proof/Laws/Step.lean ====
section
/-! SUPPORT. Everything a step can do, said once (spec/20_memory.md R51 to R61, spec/60_exceptions.md R211). -/

namespace Sys2Proof.Machine

/-- The state a host's write to an R/W word acts on: its event taken, its exclusive use open. -/
def afterWrite (s : State) (h : Nat) (rest : List HostEvent) : State := { s with pending := rest, owner := some h }

@[simp] theorem takeUse_read (h : Nat) (o : Int) (n : Nat) (s : State) : takeUse h (.read o n) s = s := rfl

/-- A write to an R/W word opens its host's exclusive use (R61). -/
theorem takeUse_of_readWrite {o : Nat} (h n : Nat) (v : Word) (s : State) (hw : isReadWrite o = true) :
    takeUse h (.write o n v) s = { s with owner := some h } := by simp [takeUse, hw]

/-- A write that is ignored opens none (R55, R61). -/
theorem takeUse_of_not_readWrite {o : Nat} (h n : Nat) (v : Word) (s : State) (hw : isReadWrite o = false) :
    takeUse h (.write o n v) s = s := by simp [takeUse, hw]

/-- What a step's answer can be. -/
inductive StepAnswers (s : State) : Result → Prop
  | idle (hp : s.pending = []) : StepAnswers s (.next s)
  | release (h : Nat) (rest : List HostEvent) (hp : s.pending = .release h :: rest) :
      StepAnswers s (.next { s with pending := rest, owner := if s.owner = some h then none else s.owner })
  | reset (rest : List HostEvent) (hp : s.pending = .reset :: rest) :
      StepAnswers s (hostReset { s with pending := rest })
  | outside (h : Nat) (a : Access) (rest : List HostEvent) (hp : s.pending = .access h a :: rest)
      (ha : a.reachesWindow = false) : StepAnswers s (platformAccess a { s with pending := rest })
  | refused (h : Nat) (a : Access) (rest : List HostEvent) (r : Refusal) (hp : s.pending = .access h a :: rest)
      (hv : Violates s h a) : StepAnswers s (.refused r)
  | read (h o : Nat) (rest : List HostEvent) (hp : s.pending = .access h (.read o 4) :: rest)
      (hv : ¬ Violates s h (.read o 4)) (ho : o < 0x100 ∧ o % 4 = 0) :
      StepAnswers s (.next { s with pending := rest, readLog := memRead s o :: s.readLog })
  | store (h o : Nat) (v : Word) (rest : List HostEvent) (hp : s.pending = .access h (.write o 4 v) :: rest)
      (hv : ¬ Violates s h (.write o 4 v)) (ho : o < 0x100 ∧ o % 4 = 0) (h0 : o ≠ 0) (hw : isReadWrite o = true) :
      StepAnswers s (.next (memStore (afterWrite s h rest) o v))
  | ignored (h o : Nat) (v : Word) (rest : List HostEvent) (hp : s.pending = .access h (.write o 4 v) :: rest)
      (hv : ¬ Violates s h (.write o 4 v)) (ho : o < 0x100 ∧ o % 4 = 0) (hw : isReadWrite o = false) :
      StepAnswers s (.next { s with pending := rest })
  | command (h : Nat) (v : Word) (rest : List HostEvent) (hp : s.pending = .access h (.write 0 4 v) :: rest)
      (hv : ¬ Violates s h (.write 0 4 v)) :
      StepAnswers s (execute v { afterWrite s h rest with cmd := v })

theorem ownedByOther_eq_true {s : State} {h : Nat} : ownedByOther s h = true ↔ ∃ h', s.owner = some h' ∧ h' ≠ h := by
  unfold ownedByOther
  cases s.owner <;> simp

/-- The offsets of an access that reaches the window (R51; log 17 for the overlap below it). -/
theorem reachesWindow_eq_true {a : Access} : a.reachesWindow = true ↔
    (0 ≤ a.offset ∧ a.offset < 0x100) ∨ (a.offset < 0 ∧ 0 < a.offset + a.size) := by
  rw [Access.reachesWindow, decide_eq_true_iff]
  omega

/-- The inversion lemma of `hostAccess`, for the state with the event taken. -/
theorem hostAccess_answers (s : State) (h : Nat) (a : Access) (rest : List HostEvent)
    (hp : s.pending = .access h a :: rest) : StepAnswers s (hostAccess h a { s with pending := rest }) := by
  unfold hostAccess
  by_cases hw : a.reachesWindow = false
  · rw [if_pos hw]
    exact .outside h a rest hp hw
  rw [if_neg hw]
  have hw' := reachesWindow_eq_true.mp (by simpa using hw : a.reachesWindow = true)
  by_cases ho : ownedByOther { s with pending := rest } h = true
  · rw [if_pos ho]
    exact .refused h a rest _ hp ⟨hw', .inl (ownedByOther_eq_true.mp ho)⟩
  rw [if_neg ho]
  by_cases hb : (s.status.busy && !a.isStatusRead) = true
  · rw [if_pos hb]
    refine .refused h a rest _ hp ⟨hw', .inr (.inl ?_)⟩
    simpa [Access.isStatusRead] using hb
  rw [if_neg hb]
  by_cases hal : a.isAlignedWord = false
  · rw [if_pos hal]
    refine .refused h a rest _ hp ⟨hw', .inr (.inr ?_)⟩
    simpa [Access.isAlignedWord] using hal
  rw [if_neg hal]
  have hal' : 0 ≤ a.offset ∧ a.offset < 0x100 ∧ a.offset % 4 = 0 ∧ a.size = 4 := by
    simpa [Access.isAlignedWord] using hal
  have hv : ¬ Violates s h a := by
    rintro ⟨-, h1 | h1 | h1⟩
    · exact ho (ownedByOther_eq_true.mpr h1)
    · exact hb (by simpa [Access.isStatusRead] using h1)
    · exact h1 hal'
  obtain ⟨h0, h1, h2, h3⟩ := hal'
  cases a with
  | read o n =>
    simp only [Access.offset, Access.size] at h0 h1 h2 h3
    lift o to Nat using h0
    subst h3
    exact .read h o rest hp hv ⟨by omega, by omega⟩
  | write o n v =>
    simp only [Access.offset, Access.size] at h0 h1 h2 h3
    lift o to Nat using h0
    subst h3
    simp only [windowAccess, Int.toNat_natCast]
    by_cases hz : o = 0
    · subst hz
      exact .command h v rest hp hv
    rw [if_neg hz]
    by_cases hw : isReadWrite o = true
    · rw [takeUse_of_readWrite _ _ _ _ hw]
      exact .store h o v rest hp hv ⟨by omega, by omega⟩ hz hw
    · have hw' : isReadWrite o = false := by simpa using hw
      rw [takeUse_of_not_readWrite _ _ _ _ hw', memStore_of_not_readWrite _ v hw']
      exact .ignored h o v rest hp hv ⟨by omega, by omega⟩ hw'

/-- The inversion lemma of `step`. -/
theorem step_answers (s : State) : StepAnswers s (step s) := by
  unfold step hostStep
  split
  · rename_i hp
    exact .idle hp
  · rename_i e rest hp
    cases e with
    | access h a => exact hostAccess_answers s h a rest hp
    | release h =>
      have := StepAnswers.release (s := s) h rest hp
      simp only [hostEvent, hostRelease]
      split at this <;> rename_i ho <;> simpa [ho] using this
    | reset => exact .reset rest hp

end Sys2Proof.Machine
end

