-- ==== Sys2Proof/Machine/Assembler.lean ====
section
/-! DEFINITION. The assembler syntax and the pseudo-instructions (spec/30_encoding.md R79, R80), as host events. Nothing in
the block depends on them. -/

namespace Sys2Proof.Machine

/-- A register name of the window (spec/20_memory.md R51); `inWord k` and `outWord k` are `INk` and `OUTk` (R79). -/
inductive RegName where
  | cmd | status | state | outlen | opaLo | opaHi | opbLo | opbHi | resLo | resHi
  | inWord (k : Nat)
  | outWord (k : Nat)
  deriving DecidableEq, Repr

/-- `offset(NAME)` (R51, R79). -/
def RegName.offset : RegName → Nat
  | .cmd => 0x000
  | .status => 0x004
  | .state => 0x008
  | .outlen => 0x00C
  | .opaLo => 0x010
  | .opaHi => 0x014
  | .opbLo => 0x018
  | .opbHi => 0x01C
  | .resLo => 0x020
  | .resHi => 0x024
  | .inWord k => 0x040 + 4 * k
  | .outWord k => 0x080 + 4 * k

/-- `wr NAME, imm32` by host `h` (R79). -/
def wr (h : Nat) (n : RegName) (v : Word) : HostEvent := .access h (.write n.offset 4 v)

/-- `rd NAME` by host `h` (R79). -/
def rd (h : Nat) (n : RegName) : HostEvent := .access h (.read n.offset 4)

/-- A mnemonic line is a write of the command's word to `CMD` (R79). -/
def command (h : Nat) (i : Instr) : HostEvent := wr h .cmd (encode i)

/-- The free fields of a command, in the order a command line lists them (R79). `NANOID` with no operand is `LEN = 0`. -/
def operandsOf : Instr → List Nat
  | .drawBytes len => [len]
  | .b58Enc len => [len]
  | .nanoid len => if len = 0 then [] else [len]
  | .nanoidCa len alen => [len, alen]
  | .seed | .nextU32 | .nextF64 | .intIncl | .intBig | .uuid4Gen | .uuid4Enc | .ulidGen | .ulidGenTs | .ulidEnc
  | .suuidGen | .objidGen | .objidGenTs | .objidEnc | .upcChk | .eanChk | .upcGen | .eanGen => []

/-- A command line: the mnemonic, then the free fields as decimal numbers (R79). -/
def commandLine (i : Instr) : String :=
  match operandsOf i with
  | [] => i.mnemonic
  | [n] => i.mnemonic ++ " " ++ Nat.repr n
  | n :: a :: _ => i.mnemonic ++ " " ++ Nat.repr n ++ ", " ++ Nat.repr a

/-- `li OPA, v` (R80). -/
def liOpa (h : Nat) (v : Int) : List HostEvent :=
  [wr h .opaLo ((BitVec.ofInt 64 v).extractLsb' 0 32), wr h .opaHi ((BitVec.ofInt 64 v).extractLsb' 32 32)]

/-- `li OPB, v` (R80). -/
def liOpb (h : Nat) (v : Int) : List HostEvent :=
  [wr h .opbLo ((BitVec.ofInt 64 v).extractLsb' 0 32), wr h .opbHi ((BitVec.ofInt 64 v).extractLsb' 32 32)]

/-- `seed u` (R80). -/
def seedLines (h : Nat) (u : Word) : List HostEvent := [wr h .opaLo u, command h .seed]

/-- `int lo, hi` (R80). -/
def intLines (h : Nat) (lo hi : Int) : List HostEvent := liOpa h lo ++ liOpb h hi ++ [command h .intIncl]

/-- `bigint lo, hi` (R80). -/
def bigintLines (h : Nat) (lo hi : Int) : List HostEvent := liOpa h lo ++ liOpb h hi ++ [command h .intBig]

/-- Word `k` of a byte sequence; a byte past its end is 0 (R80). -/
def byteWord (bytes : List Byte) (k : Nat) : Word :=
  wordOfBytes (bytes.getD (4 * k) 0) (bytes.getD (4 * k + 1) 0) (bytes.getD (4 * k + 2) 0) (bytes.getD (4 * k + 3) 0)

/-- `ldin b0, ..., b(m-1)` (R80): whole words, the last one filled with zeros. -/
def ldin (h : Nat) (bytes : List Byte) : List HostEvent :=
  (List.range ((bytes.length + 3) / 4)).map fun k => wr h (.inWord k) (byteWord bytes k)

/-- `rdres` (R80). -/
def rdres (h : Nat) : List HostEvent := [rd h .resLo, rd h .resHi]

/-- `rdout` (R80), for the value `n` that `OUTLEN` reads. -/
def rdout (h n : Nat) : List HostEvent := rd h .outlen :: (List.range ((n + 3) / 4)).map fun k => rd h (.outWord k)

/-- `poll` (R80), of `n` reads of `STATUS`; in the atomic model the first read ends it, since `BUSY` reads 0 (R58, R233). -/
def poll (h n : Nat) : List HostEvent := List.replicate n (rd h .status)

end Sys2Proof.Machine
end

