-- ==== Sys2Proof/Tests/Slice0.lean ====
section
/-! SUPPORT. Tests of the model against the words and the vectors the spec writes out (spec/95_test_vectors.md; each test
names its source), and a witness for the hypotheses of every statement that has some. -/

open Sys2Proof Sys2Proof.Machine

namespace Sys2Proof.Tests

/-! ### Helpers -/

/-- A block just reset, with these parameters. -/
def start (v : MixerVariant) (seed : Word) : State := State.resetWith { variant := v, defaultSeed := seed }

/-- With operands. -/
def operands (s : State) (a b : DWord) : State := { s with opa := a, opb := b }

/-- With bytes in `IN`. -/
def input (s : State) (bytes : List Byte) : State := { s with inp := bufOfBytes bytes }

/-- With host events to come. -/
def host (s : State) (l : List HostEvent) : State := { s with pending := l }

/-- The next state, where there is one. -/
def after : Result → Option State
  | .next s => some s
  | _ => none

/-- `RES` and `STATE` afterwards. -/
def resAndRng (r : Result) : Option (DWord × Word) := (after r).map fun s => (s.res, s.rng)

/-- The bytes of `OUT` up to `OUTLEN`, and `STATE`, afterwards. -/
def outAndRng (r : Result) : Option (List Byte × Word) := (after r).map fun s => (bufTake s.out s.outlen.toNat, s.rng)

/-- `STATUS` as read and `STATE` afterwards. -/
def statusAndRng (r : Result) : Option (Word × Word) := (after r).map fun s => (s.status.word, s.rng)

/-- The bytes of a string. -/
def text (str : String) : List Byte := ascii str.toList

/-! ### WellFormed: a field that does not fit in its 8 bits is refused (R70) -/

theorem test_wf_drawBytes : ¬ WellFormed (.drawBytes 256) := by decide
theorem test_wf_b58Enc : ¬ WellFormed (.b58Enc 256) := by decide
theorem test_wf_nanoid : ¬ WellFormed (.nanoid 256) := by decide
theorem test_wf_nanoidCa_len : ¬ WellFormed (.nanoidCa 256 0) := by decide
theorem test_wf_nanoidCa_alen : ¬ WellFormed (.nanoidCa 0 256) := by decide

/-! ### Decoding: words written out from R70 and R73, as `RSV CA TS ALEN LEN OP` -/

theorem test_dec_seed : decodeWord 0b000000_0_0_00000000_00000000_00000001#32 = .ok .seed := by decide
theorem test_dec_nextU32 : decodeWord 0b000000_0_0_00000000_00000000_00000010#32 = .ok .nextU32 := by decide
theorem test_dec_nextF64 : decodeWord 0b000000_0_0_00000000_00000000_00000011#32 = .ok .nextF64 := by decide
theorem test_dec_intIncl : decodeWord 0b000000_0_0_00000000_00000000_00000100#32 = .ok .intIncl := by decide
theorem test_dec_intBig : decodeWord 0b000000_0_0_00000000_00000000_00000101#32 = .ok .intBig := by decide
theorem test_dec_drawBytes : decodeWord 0b000000_0_0_00000000_01000000_00000110#32 = .ok (.drawBytes 64) := by decide
theorem test_dec_uuid4Gen : decodeWord 0b000000_0_0_00000000_00000000_00010000#32 = .ok .uuid4Gen := by decide
theorem test_dec_uuid4Enc : decodeWord 0b000000_0_0_00000000_00000000_00010001#32 = .ok .uuid4Enc := by decide
theorem test_dec_ulidGen : decodeWord 0b000000_0_0_00000000_00000000_00010010#32 = .ok .ulidGen := by decide
theorem test_dec_ulidGenTs : decodeWord 0b000000_0_1_00000000_00000000_00010010#32 = .ok .ulidGenTs := by decide
theorem test_dec_ulidEnc : decodeWord 0b000000_0_0_00000000_00000000_00010011#32 = .ok .ulidEnc := by decide
theorem test_dec_suuidGen : decodeWord 0b000000_0_0_00000000_00000000_00010100#32 = .ok .suuidGen := by decide
theorem test_dec_b58Enc : decodeWord 0b000000_0_0_00000000_00100001_00010101#32 = .ok (.b58Enc 33) := by decide
theorem test_dec_nanoid : decodeWord 0b000000_0_0_00000000_01000001_00010110#32 = .ok (.nanoid 65) := by decide
theorem test_dec_nanoidCa : decodeWord 0b000000_1_0_00010000_00001000_00010110#32 = .ok (.nanoidCa 8 16) := by decide
theorem test_dec_objidGen : decodeWord 0b000000_0_0_00000000_00000000_00010111#32 = .ok .objidGen := by decide
theorem test_dec_objidGenTs : decodeWord 0b000000_0_1_00000000_00000000_00010111#32 = .ok .objidGenTs := by decide
theorem test_dec_objidEnc : decodeWord 0b000000_0_0_00000000_00000000_00011000#32 = .ok .objidEnc := by decide
theorem test_dec_upcChk : decodeWord 0b000000_0_0_00000000_00000000_00100000#32 = .ok .upcChk := by decide
theorem test_dec_eanChk : decodeWord 0b000000_0_0_00000000_00000000_00100001#32 = .ok .eanChk := by decide
theorem test_dec_upcGen : decodeWord 0b000000_0_0_00000000_00000000_00100010#32 = .ok .upcGen := by decide
theorem test_dec_eanGen : decodeWord 0b000000_0_0_00000000_00000000_00100011#32 = .ok .eanGen := by decide

/-- R74: `LEN` of NEXT_U32, `TS` beside `CA`, `ALEN` of NANOID; R75: the zero word, a reserved opcode, an `RSV` bit. -/
theorem test_dec_rejects :
    decodeWord 0x00000102 = .error .fixedField ∧ decodeWord 0x03000016 = .error .fixedField ∧
    decodeWord 0x00030016 = .error .fixedField ∧ decodeWord 0x01000013 = .error .fixedField ∧
    decodeWord 0x00000000 = .error (.reservedOpcode 0) ∧ decodeWord 0x00000024 = .error (.reservedOpcode 0x24) ∧
    decodeWord 0x04000002 = .error .reservedBits := by decide

/-- Byte order (spec/20_memory.md R53): the first byte is bits 7:0. -/
theorem test_dec_bytes : decode [0x16, 0x08, 0x10, 0x02] = .ok (.nanoidCa 8 16) ∧ decode [0x01, 0, 0] = .error .notOneWord := by
  decide

theorem test_decodeTableWord : decodeTableWord 32 0x02000016 = some (.nanoidCa 0 0) ∧ decodeTableWord 32 0x24 = none := by
  decide

/-- `step` runs the placed word first after reset (spec/95_test_vectors.md 2.4, DRAW_BYTES 65: `STATUS` = 0x306). -/
theorem test_step_runs_placed_word :
    ((after (step (State.reset.withFetchWord 32 0x00004106))).map fun s => (s.status.word, s.cmd)) =
      some (0x00000306, 0x00004106) := by decide +kernel

/-! ### One command each (spec/95_test_vectors.md, section named) -/

/-- 2.1: SEED ignores `OPA[63:32]`. -/
theorem test_seed : (after (exec .seed (operands (start .doc 7) 0xFFFFFFFF0000002A 0))).map (·.rng) = some 0x2A := by
  decide +kernel

/-- 2.1: the first draw from seed 42, both mixers. -/
theorem test_nextU32 : resAndRng (exec .nextU32 (start .doc 42)) = some (0x961EAB71, 0x6D2B7A1F) ∧
    resAndRng (exec .nextU32 (start .mulberry32 42)) = some (0x99E1EF7C, 0x6D2B7A1F) := by decide +kernel

/-- 2.1: the Weyl add wraps, and the mixer's fixed point. -/
theorem test_nextU32_wraps : resAndRng (exec .nextU32 (start .doc 0xFFFFFFFF)) = some (0xE2D9DB9E, 0x6D2B79F4) ∧
    resAndRng (exec .nextU32 (start .mulberry32 0x92D4860B)) = some (0, 0) := by decide +kernel

/-- 2.2: seed 0. -/
theorem test_nextF64 : resAndRng (exec .nextF64 (start .doc 0)) = some (0x3FE779A59A800000, 0x6D2B79F5) := by
  decide +kernel

/-- 2.2: the smallest draw and a power of two. -/
theorem test_f64Bits : f64Bits 0x00000001 = 0x3DF0000000000000 ∧ f64Bits 0x80000000 = 0x3FE0000000000000 := by
  decide +kernel

/-- 2.3, V3.18: the first draw is rejected, the second accepted. -/
theorem test_intIncl_rejects : resAndRng (exec .intIncl (operands (start .doc 0) 0 0x80000000)) =
    some (0x00147C37, 0xDA56F3EA) := by decide +kernel

/-- 2.3, V3.9 and V3.19: the full range draws nothing and gives `min`; an inverted range fails. -/
theorem test_intIncl_ends :
    resAndRng (exec .intIncl (operands (start .doc 42) 0x8000000000000000 0x7FFFFFFFFFFFFFFF)) =
      some (0x8000000000000000, 42) ∧
    statusAndRng (exec .intIncl (operands (start .doc 42) 7 3)) = some (0x00000106, 42) := by decide +kernel

/-- 2.3, V3.1 and V3.5: the sampler on a scripted stream (R130). -/
theorem test_sampleStream :
    let next : List Word → Word × List Word := fun l => (l.headD 0, l.tail)
    sampleStream next 0 9 [0xFFFFFFFA, 0xFFFFFFFF, 0xFFFFFFF9, 1] = (9, [1]) ∧
    sampleStream next (-5) 5 [0xFFFFFFFF, 0xFFFFFFF0, 1] = (5, [1]) := by decide +kernel

/-- 2.4, V4.6. -/
theorem test_intBig : resAndRng (exec .intBig (operands (start .doc 42) 0x8000000000000000 0x7FFFFFFFFFFFFFFF)) =
    some (0xF104304AF9071982, 0x695BCFD2) := by decide +kernel

/-- 2.4, V4.5: a negative low end. -/
theorem test_bigResult : BitVec.ofInt 64 (bigResult (-1000) 1000 [0, 1, 2, 3, 4, 5, 6, 7]) = 0xFFFFFFFFFFFFFD5D#64 := by
  decide +kernel

/-- 2.4, V4.8. -/
theorem test_drawBytes : outAndRng (exec (.drawBytes 4) (start .doc 42)) = some ([0x71, 0x04, 0x30, 0x4A], 0xB4ADE7FE) := by
  decide +kernel

/-- 2.4, V4.10 and V4.11. -/
theorem test_drawBytes_ends : outAndRng (exec (.drawBytes 0) (start .doc 42)) = some ([], 42) ∧
    statusAndRng (exec (.drawBytes 65) (start .doc 42)) = some (0x00000306, 42) := by decide +kernel

/-- 2.5. -/
theorem test_uuid4Gen : outAndRng (exec .uuid4Gen (start .doc 42)) =
    some (text "7104304a-f907-4982-aacf-0727270c7d9b", 0xD2B79F7A) := by decide +kernel

/-- 2.5. -/
theorem test_uuid4Enc : outAndRng (exec .uuid4Enc (input (start .doc 42) [0, 1, 2, 3, 4, 5, 6, 7, 8, 9, 10, 11, 12, 13, 14,
    15])) = some (text "00010203-0405-4607-8809-0a0b0c0d0e0f", 42) := by decide +kernel

/-- 2.6. -/
theorem test_ulidGen : outAndRng (exec .ulidGen (start .doc 42)) = some (text "NDRWTF1T0GR4NY873612NKR74W", 0x1E09B7A6) := by
  decide +kernel

/-- 2.6. -/
theorem test_ulidGenTs : outAndRng (exec .ulidGenTs (operands (start .doc 42) 0x18BCFE56800 0)) =
    some (text "065WZSB801RG8C2AZ43HK0HASW", 0x43B2C3BC) := by decide +kernel

/-- 2.6. -/
theorem test_ulidEnc : outAndRng (exec .ulidEnc (operands (input (start .doc 42) [0, 1, 2, 3, 4, 5, 6, 7, 8, 9])
    0x18BCFE56800 0)) = some (text "065WZSB8000020G30G2GC1R814", 42) := by decide +kernel

/-- 2.6: a negative timestamp is 0, one past 48 bits the greatest. -/
theorem test_clamp48 : clamp48 (-1) = 0 ∧ clamp48 (2 ^ 48) = 0xFFFFFFFFFFFF ∧ clamp48 5 = 5 := by decide

/-- 2.7. -/
theorem test_suuidGen : outAndRng (exec .suuidGen (start .doc 42)) = some (text "ExS7mZsgk5xLi1nCkM8StJ", 0xD2B79F7A) := by
  decide +kernel

/-- 2.7: leading zero bytes and the empty input. -/
theorem test_b58Enc : outAndRng (exec (.b58Enc 3) (input (start .doc 42) [0, 0, 1])) = some (text "112", 42) ∧
    outAndRng (exec (.b58Enc 0) (start .doc 42)) = some (text "1", 42) := by decide +kernel

/-- 2.7: "hello world", and one byte too many. -/
theorem test_b58Enc_text : outAndRng (exec (.b58Enc 11) (input (start .doc 42) (text "hello world"))) =
      some (text "StV1DL6CwTryKyV", 42) ∧
    statusAndRng (exec (.b58Enc 33) (start .doc 42)) = some (0x00000306, 42) := by decide +kernel

/-- 2.8. -/
theorem test_nanoid : outAndRng (exec (.nanoid 0) (start .doc 42)) = some (text "xEwK5HZCqPHnnM9bzu1kI", 0xF4910143) := by
  decide +kernel

/-- 2.8 and program P5. -/
theorem test_nanoidCa : outAndRng (exec (.nanoidCa 8 16) (input (start .doc 42) (text "0123456789abcdef"))) =
    some (text "140a9792", 0x695BCFD2) := by decide +kernel

/-- 2.8: the two ends of `ALEN`. -/
theorem test_nanoidCa_ends : statusAndRng (exec (.nanoidCa 8 0) (start .doc 42)) = some (0x00000306, 42) ∧
    statusAndRng (exec (.nanoidCa 8 65) (start .doc 42)) = some (0x00000306, 42) := by decide +kernel

/-- 2.9. -/
theorem test_objidGen : outAndRng (exec .objidGen (start .doc 42)) = some (text "961eab7104304af90719822a", 0xD68749C7) := by
  decide +kernel

/-- 2.9. -/
theorem test_objidGenTs : outAndRng (exec .objidGenTs (operands (start .doc 42) 0x5F5E1000 0)) =
    some (text "5f5e10007104304af9071982", 0x695BCFD2) := by decide +kernel

/-- 2.9: `OPA[63:32]` is ignored. -/
theorem test_objidEnc : outAndRng (exec .objidEnc (operands (input (start .doc 42) [0, 1, 2, 3, 4, 5, 6, 7])
    0x123456785F5E1000 0)) = some (text "5f5e10000001020304050607", 42) := by decide +kernel

/-- S1. -/
theorem test_upcChk : outAndRng (exec .upcChk (input (start .doc 42) [0, 3, 6, 0, 0, 0, 2, 9, 1, 4, 5])) =
    some (text "036000291452", 42) := by decide +kernel

/-- 2.10 and program P3: a character is no digit. -/
theorem test_upcChk_bad : statusAndRng (exec .upcChk (input (start .doc 42) [0x30])) = some (0x00000406, 42) := by
  decide +kernel

/-- S2. -/
theorem test_eanChk : outAndRng (exec .eanChk (input (start .doc 42) [4, 0, 0, 6, 3, 8, 1, 3, 3, 3, 9, 3])) =
    some (text "4006381333931", 42) := by decide +kernel

/-- 2.10: the twelfth digit is checked too. -/
theorem test_eanChk_bad : statusAndRng (exec .eanChk (input (start .doc 42) [0, 0, 0, 0, 0, 0, 0, 0, 0, 0, 0, 10])) =
    some (0x00000406, 42) := by decide +kernel

/-- 2.10. -/
theorem test_upcGen : outAndRng (exec .upcGen (start .doc 42)) = some (text "926419904978", 0xB0DE3DB1) := by decide +kernel

/-- 2.10. -/
theorem test_eanGen : outAndRng (exec .eanGen (start .doc 42)) = some (text "9264199049795", 0x1E09B7A6) := by decide +kernel

/-! ### The window (R51 to R56) -/

/-- `ldin 00 01 .. 0F` of program P3 writes 0x03020100 to word 0 of `IN`. -/
theorem test_window_lanes : bufTake (memStore (start .doc 0) 0x040 0x03020100).inp 5 = [0, 1, 2, 3, 0] ∧
    memRead (memStore (start .doc 0) 0x07C 0x0F0E0D0C) 0x07C = 0x0F0E0D0C := by decide +kernel

/-- `li OPA, -1000` of program P5. -/
theorem test_window_pair :
    (memStore (memStore (start .doc 0) 0x010 0xFFFFFC18) 0x014 0xFFFFFFFF).opa = BitVec.ofInt 64 (-1000) := by
  decide +kernel

/-- R54: reserved words read 0; R55: read-only words ignore writes. -/
theorem test_window_ignored : memRead (start .doc 5) 0x028 = 0 ∧ memRead (start .doc 5) 0x0FC = 0 ∧
    memStore (start .doc 5) 0x008 9 = start .doc 5 := by decide +kernel

/-- R37: `STATUS` after a failure, 0x00000106 in spec/95_test_vectors.md, and each field at its own bit. -/
theorem test_status_word : memRead (failed (start .doc 5) 1) 0x004 = 0x00000106 ∧
    Status.word { busy := true, err := false, everErr := true, code := 3 } = 0x00000305 ∧
    Status.word { busy := false, err := true, everErr := false, code := 0 } = 0x00000002 := by decide

/-- R61: a write to `STATUS` opens no exclusive use, so another host's access still runs; a write to `OPA_LO` opens it. -/
theorem test_exclusive_use :
    ((after (step (host (start .doc 0) [.access 1 (.write 0x004 4 7)]))).map (·.owner)) = some none ∧
    ((after (step (host (start .doc 0) [.access 1 (.write 0x010 4 7)]))).map (·.owner)) = some (some 1) ∧
    ((after (step (host (start .doc 0) [.access 1 (.write 0x080 4 7)]))).map (·.owner)) = some none := by decide +kernel

/-- R211: an unaligned access, a second host, an access while busy. -/
theorem test_refused :
    step (host (start .doc 0) [.access 0 (.read 2 4)]) = .refused .notAlignedWord ∧
    step { host (start .doc 0) [.access 1 (.read 4 4)] with owner := some 0 } = .refused .unsynchronisedHosts ∧
    step { host (start .doc 0) [.access 0 (.read 0 4)] with status := { Status.reset with busy := true } } =
      .refused .accessWhileBusy := ⟨rfl, rfl, rfl⟩

/-! ### Witnesses: states and operands that meet the hypotheses of each statement that has some -/

/-- A state whose next event is the write of `w` to `CMD` by host 2, which has exclusive use. -/
def withWord (w : Word) : State := { host (start .doc 5) [.access 2 (.write 0 4 w), .reset] with owner := some 2 }

theorem witness_DecodeOfEncode : WellFormed (.nanoidCa 255 255) ∧ WellFormed (.drawBytes 0) ∧ WellFormed .seed := by decide

theorem witness_EncodeOfDecode : decodeWord 0x02FFFF16 = .ok (.nanoidCa 255 255) := by decide

theorem witness_WordLegal : (∃ r ∈ rows, (0x0000FF06 : Word) &&& r.mask = r.pattern) ∧
    ∀ r ∈ rows, (0x00000007 : Word) &&& r.mask ≠ r.pattern := by decide

theorem witness_DecodedOperands : decodeWord 0x0000FF06 = .ok (.drawBytes 255) ∧ decodeWord 0x0000FF15 = .ok (.b58Enc 255) ∧
    decodeWord 0x0000FF16 = .ok (.nanoid 255) ∧ decodeWord 0x02010016 = .ok (.nanoidCa 0 1) := by decide

/-- For StepRunsTheDecodedCommand and the first clause of CmdHoldsTheLastWordWritten. -/
theorem witness_StepRuns :
    (withWord 0x02).pending = .access 2 (.write 0 4 0x02) :: [.reset] ∧
    ((withWord 0x02).owner = none ∨ (withWord 0x02).owner = some 2) ∧ (withWord 0x02).status.busy = false ∧
    decodeWord 0x02 = .ok .nextU32 := by decide +kernel

theorem witness_StepOfAnIllegalWord :
    (withWord 0x07).pending = .access 2 (.write 0 4 0x07) :: [.reset] ∧
    ((withWord 0x07).owner = none ∨ (withWord 0x07).owner = some 2) ∧ (withWord 0x07).status.busy = false ∧
    decodeWord 0x07 = .error (.reservedOpcode 7) := by decide +kernel

/-- For the second clause of CmdHoldsTheLastWordWritten: the next event is a release. -/
theorem witness_CmdHolds :
    let s := { host (start .doc 5) [.release 2] with owner := some 2, cmd := 9 }
    (step s = .next { s with pending := [], owner := none }) ∧
    (∀ h w, s.pending.head? ≠ some (.access h (.write 0 4 w))) ∧ s.pending.head? ≠ some .reset := by
  refine ⟨rfl, ?_, ?_⟩ <;> simp [host]

theorem witness_FloatBits : (1 : Word) ≠ 0 ∧ (0xFFFFFFFF : Word) ≠ 0 := by decide

/-- For the first and last clauses of SamplerLoopAlwaysEnds, at both ends, and the second. -/
theorem witness_SamplerLoop : (1 ≤ 1 ∧ 1 < 2 ^ 32) ∧ (1 ≤ 2 ^ 32 - 1 ∧ 2 ^ 32 - 1 < 2 ^ 32) ∧ 0 < 32 ∧ 31 < 32 := by
  decide

/-- For the second clause of SampleIntReturnsFirstAcceptedDraw. -/
theorem witness_SampleInt_degenerate : ((2 ^ 63 - 1 : Int) - (-2 ^ 63) + 1) % 2 ^ 32 = 0 := by decide

/-- For IntInclCommitsASampledValue, IntBigReducesEightBytes and IntegerResultsStayInRange: the full range (whose span is
degenerate), a range of one value, and a range across zero. -/
theorem witness_ranges :
    (let s := operands (start .doc 1) 0x8000000000000000 0x7FFFFFFFFFFFFFFF
     s.opa.toInt ≤ s.opb.toInt ∧ (s.opb.toInt - s.opa.toInt + 1) % 2 ^ 32 = 0) ∧
    (let s := operands (start .doc 1) 5 5; s.opa.toInt ≤ s.opb.toInt) ∧
    (let s := operands (start .doc 1) 0xFFFFFFFFFFFFFFFB 5; s.opa.toInt ≤ s.opb.toInt) := by decide +kernel

/-- Both sides of InvertedRangeFails. -/
theorem witness_InvertedRange :
    (let s := operands (start .doc 1) 7 3; s.opb.toInt < s.opa.toInt) ∧
    (let s := operands (start .doc 1) 0 0xFFFFFFFFFFFFFFFF; s.opb.toInt < s.opa.toInt) ∧
    (let s := operands (start .doc 1) 3 3; ¬ s.opb.toInt < s.opa.toInt) := by decide +kernel

/-- For DrawBytesCommandFillsOut, NanoidUsesLowSixBitsOfEachDraw, NanoidCustomSamplesItsAlphabet and
Base58CommandsEncodeTheirBytes: both ends of the lengths. -/
theorem witness_lengths : (0 ≤ 64 ∧ 64 ≤ 64) ∧ (1 ≤ 1 ∧ 64 ≤ 64) ∧ (0 ≤ 32 ∧ 32 ≤ 32) := by decide

/-- The lengths where each clause of LengthsOutOfRangeFail changes. -/
theorem witness_LengthsOutOfRange :
    statusAndRng (exec (.drawBytes 64) (start .doc 42)) ≠ some (0x306, 42) ∧
    statusAndRng (exec (.b58Enc 32) (start .doc 42)) = some (0, 42) ∧
    statusAndRng (exec (.nanoid 65) (start .doc 42)) = some (0x306, 42) ∧
    statusAndRng (exec (.nanoidCa 65 1) (start .doc 42)) = some (0x306, 42) := by decide +kernel

/-- For CompleteWritesResultAndOut: the longest and the shortest `OUT`. -/
theorem witness_Complete : (List.replicate 64 (1 : Byte)).length ≤ 64 ∧ ([] : List Byte).length ≤ 64 := by decide

theorem witness_HexRenders : 1 < ([0x1F, 0xA0] : List Byte).length ∧ hex [0x1F, 0xA0] = "1fa0".toList := by decide

/-- For UuidPatternForcesVersionAndVariant, UuidStringHasItsShape and ShortUuidHas19To22Characters. -/
theorem witness_uuidBytes : (List.replicate 16 (0xFF : Byte)).length = 16 := by decide

/-- For UlidCharactersAreFiveBitGroups and ObjectIdRendersTimestampThenBytes. -/
theorem witness_renderBytes : (List.replicate 10 (0xFF : Byte)).length = 10 ∧ (List.replicate 8 (0xFF : Byte)).length = 8 := by
  decide

/-- For ChecksumCommandsCheckHostDigits and both sides of BadDigitsFail: all digits, and a bad last digit. -/
theorem witness_digits :
    (∀ i < 11, (bufByte (input (start .doc 1) (List.replicate 11 9)).inp i).toNat ≤ 9) ∧
    (∀ i < 12, (bufByte (input (start .doc 1) (List.replicate 12 9)).inp i).toNat ≤ 9) ∧
    (∃ i < 11, 10 ≤ (bufByte (input (start .doc 1) (List.replicate 11 10)).inp i).toNat) ∧
    (∃ i < 12, 10 ≤ (bufByte (input (start .doc 1) (List.replicate 12 10)).inp i).toNat) := by decide +kernel

/-- For FullCodesPassTheirChecksum: a next state without an error, for a command of each length. -/
theorem witness_FullCodes :
    (after (exec .upcChk (start .doc 1))).map (·.status.err) = some false ∧
    (after (exec .eanGen (start .doc 1))).map (·.status.err) = some false := by decide +kernel

/-- A state whose next event is host 0's access `a`. -/
def withAccess (a : Access) : State := host (start .doc 5) [.access 0 a]

/-- For ReadsChangeNothing, at both ends of the window and of its reserved words. -/
theorem witness_Reads : ∀ o ∈ [0x000, 0x028, 0x03C, 0x0C0, 0x0FC],
    (withAccess (.read o 4)).pending = .access 0 (.read o 4) :: [] ∧ (withAccess (.read o 4)).owner = none ∧
    (withAccess (.read o 4)).status.busy = false ∧ o < 0x100 ∧ o % 4 = 0 := by decide +kernel

/-- For WritesReplaceOneWord, at the ends of each of its ranges. -/
theorem witness_Writes : ∀ o ∈ [0x000, 0x004, 0x00C, 0x010, 0x01C, 0x020, 0x03C, 0x040, 0x07C, 0x080, 0x0FC],
    (withAccess (.write o 4 7)).pending = .access 0 (.write o 4 7) :: [] ∧ (withAccess (.write o 4 7)).owner = none ∧
    (withAccess (.write o 4 7)).status.busy = false ∧ o < 0x100 ∧ o % 4 = 0 := by decide +kernel

/-- For both sides of OnlyProtocolViolationsAreRefused, at the edges of the window. -/
theorem witness_Violates : Violates (withAccess (.read 2 4)) 0 (.read 2 4) ∧ ¬ Violates (withAccess (.read 4 4)) 0 (.read 4 4) ∧
    Violates (withAccess (.read 0xFF 4)) 0 (.read 0xFF 4) ∧ Violates (withAccess (.read 0 1)) 0 (.read 0 1) ∧
    ¬ Violates (withAccess (.read 0x100 1)) 0 (.read 0x100 1) ∧ ¬ Violates (withAccess (.read (-4) 4)) 0 (.read (-4) 4) ∧
    Violates (withAccess (.read (-1) 4)) 0 (.read (-1) 4) ∧
    Violates { withAccess (.read 8 4) with status := { Status.reset with busy := true } } 0 (.read 8 4) ∧
    ¬ Violates { withAccess (.read 4 4) with status := { Status.reset with busy := true } } 0 (.read 4 4) := by
  refine ⟨⟨by decide, .inr (.inr (by decide))⟩, ?_, ⟨by decide, .inr (.inr (by decide))⟩,
    ⟨by decide, .inr (.inr (by decide))⟩, ?_, ?_, ⟨by decide, .inr (.inr (by decide))⟩,
    ⟨by decide, .inr (.inl (by decide +kernel))⟩, ?_⟩ <;>
    simp [Violates, withAccess, host, start, State.resetWith, Status.reset, Access.offset, Access.size]

/-- For AccessesOutsideMissTheBlock: the first offset past the window, and the last access below it. -/
theorem witness_Outside : 0x100 ≤ (Access.read 0x100 4).offset ∧
    ((Access.write (-4) 4 0).offset + (Access.write (-4) 4 0).size ≤ 0 ∧ (Access.write (-4) 4 0).offset < 0) := by decide

theorem witness_Reset : (host (start .doc 5) [.reset, .release 1]).pending = .reset :: [.release 1] := by decide

/-- For InvariantKeptByEveryStep, ParametersNeverChange and EngineStateChangesOnlyBySeedDrawsOrReset: a state that meets
the invariant with a failed command behind it, and its step. -/
theorem witness_Invariant :
    let s := failed (withWord 0x01) 3
    BlockInv s ∧ step s = .next { s with
      pending := [.reset], cmd := 0x01, rng := 0, status := { busy := false, err := false, everErr := true, code := 0 } } :=
  ⟨by decide +kernel, rfl⟩

/-- For the last clause of EverErrIsSticky. -/
theorem witness_EverErr :
    let s := failed (withWord 0x01) 3
    s.status.everErr = true ∧ (after (step s)).isSome = true ∧ s.pending.head? ≠ some .reset := by decide +kernel

/-- For CommandsMakeTheirDraws. -/
theorem witness_Draws : (Instr.drawBytes 64).fixedDraws = some 64 ∧ (Instr.nanoid 0).fixedDraws = some 21 ∧ 6 ≤ 6 := by decide

/-- For CommandsReadOnlyTheirOperands: two states that differ in all that the command does not read, `OPA[63:32]` among it
for the commands that read the low word. -/
theorem witness_AgreeOnReads :
    AgreeOnReads .seed (operands (start .doc 1) 0x100000007 4) (operands (start .mulberry32 2) 0x900000007 5) ∧
    AgreeOnReads .ulidEnc (operands (start .doc 1) 9 4) (operands (start .mulberry32 2) 9 5) ∧
    AgreeOnReads .nextU32 (operands (start .doc 1) 9 4) (operands (input (start .doc 1) [7]) 8 5) := by decide +kernel

/-- The host's line `seed 0x2A` of program P4 is these accesses (R80). -/
theorem test_seedLines : seedLines 0 0x2A = [.access 0 (.write 0x010 4 0x2A), .access 0 (.write 0x000 4 0x00000001)] := by
  decide

end Sys2Proof.Tests
end

section
/-! PROOFS of the family `10_state`: laws the statements share. What a command's answer keeps, what a step that has a next
state did, and how the registers' words are made. -/

namespace Sys2Proof.Machine

/-! ### What a command's answer keeps -/

/-- Every answer is a next state, and it keeps the operands, `CMD`, the parameters and the host side (R40, R209). -/
theorem Answers.exists_next {s : State} {r : Result} (h : Answers s r) : ∃ t, r = .next t ∧ SameOperands s t := by
  cases h <;> exact ⟨_, rfl, by simp [SameOperands]⟩

theorem Answers.sameOperands {s t : State} (h : Answers s (.next t)) : SameOperands s t := by
  obtain ⟨t', ht, hs⟩ := h.exists_next
  cases ht
  exact hs

theorem answers_of_execute {w : Word} {s t : State} (h : execute w s = .next t) : Answers s (.next t) :=
  h ▸ execute_answers w s

/-! ### What a step that has a next state did -/

/-- What step led from a state to its next one, seen from the block's registers. -/
inductive StepTo (s : State) : State → Prop
  /-- No register written: nothing pending, a release, a read, an ignored write or an access outside the window. -/
  | quiet {t : State} (h : SameBlock s t) : StepTo s t
  | reset {t : State} (rest : List HostEvent) (hp : s.pending = .reset :: rest)
      (h : SameBlock (State.resetWith s.params) t) : StepTo s t
  | store (h o : Nat) (v : Word) (rest : List HostEvent) (h0 : o ≠ 0) : StepTo s (memStore (afterWrite s h rest) o v)
  | command {t : State} (h : Nat) (w : Word) (rest : List HostEvent) (hp : s.pending = .access h (.write 0 4 w) :: rest)
      (hx : execute w { afterWrite s h rest with cmd := w } = .next t) : StepTo s t

/-- An access that misses the window has a next state with every register as it was (R51). -/
theorem platformAccess_sameBlock (a : Access) (s : State) : ∃ t, platformAccess a s = .next t ∧ SameBlock s t := by
  cases a <;> exact ⟨_, rfl, by simp [SameBlock]⟩

/-- The inversion lemma of a step that has a next state. -/
theorem stepTo_of_step {s t : State} (h : step s = .next t) : StepTo s t := by
  have hs := step_answers s
  generalize step s = r at h hs
  cases hs with
  | idle => cases h; exact .quiet (by simp [SameBlock])
  | release h' rest hp => cases h; exact .quiet (by simp [SameBlock])
  | reset rest hp => cases h; exact .reset rest hp (by simp [SameBlock, State.resetWith])
  | outside h' a rest hp ha =>
    obtain ⟨t', ht, hb⟩ := platformAccess_sameBlock a { s with pending := rest }
    rw [ht] at h
    cases h
    exact .quiet hb
  | refused => cases h
  | read h' o rest hp hv ho => cases h; exact .quiet (by simp [SameBlock])
  | store h' o v rest hp hv ho h0 hw => cases h; exact .store h' o v rest h0
  | ignored h' o v rest hp hv ho hw => cases h; exact .quiet (by simp [SameBlock])
  | command h' v rest hp hv => exact .command h' v rest hp h

/-- A step that takes a `CMD` write of a host no other host shuts out runs the word, legal or not (R36, R77). -/
theorem step_cmdWrite {s : State} {h : Nat} {w : Word} {rest : List HostEvent}
    (hp : s.pending = .access h (.write 0 4 w) :: rest) (ho : s.owner = none ∨ s.owner = some h)
    (hb : s.status.busy = false) : step s = execute w { afterWrite s h rest with cmd := w } := by
  have hown : ownedByOther { s with pending := rest } h = false := by
    rcases ho with ho | ho <;> simp [ownedByOther, ho]
  have hreach : (Access.write 0 4 w).reachesWindow = true := rfl
  have haligned : (Access.write 0 4 w).isAlignedWord = true := rfl
  simp only [step, hostStep, hp, hostEvent, hostAccess, hreach, hown, hb, haligned]
  rfl

/-- A write to any other word than `CMD` leaves `CMD` as it was (R36). -/
theorem memStore_cmd_of_ne {s : State} {o : Nat} {v : Word} (h0 : o ≠ 0) : (memStore s o v).cmd = s.cmd := by
  unfold memStore
  rw [if_neg h0]
  split_ifs <;> rfl

/-! ### The words of a register -/

/-- A 64-bit register is its high word followed by its low word (R53). -/
theorem high_append_low (x : DWord) : x.extractLsb' 32 32 ++ x.extractLsb' 0 32 = x := by
  apply BitVec.eq_of_getLsbD_eq
  intro i hi
  rw [BitVec.getLsbD_append, BitVec.getLsbD_extractLsb', BitVec.getLsbD_extractLsb']
  split_ifs with h
  · simp [h]
  · simp [show i - 32 < 32 by omega, show 32 + (i - 32) = i by omega]

/-- The low word of `OPA` is `OPA` modulo `2^32` (R71). -/
theorem opaLow_eq (s : State) : opaLow s = BitVec.ofNat 32 s.opa.toNat := by
  apply BitVec.eq_of_toNat_eq
  simp [opaLow]

/-- Byte lane `j` of word `k` of a buffer (R53). -/
theorem extractLsb'_bufWord (b : Buffer) (k : Nat) {j : Nat} (hj : j < 4) :
    (bufWord b k).extractLsb' (8 * j) 8 = bufByte b (4 * k + j) := by
  have hlanes : bufWord b k = wordOfBytes (bufByte b (4 * k)) (bufByte b (4 * k + 1)) (bufByte b (4 * k + 2))
    (bufByte b (4 * k + 3)) := rfl
  apply BitVec.eq_of_getLsbD_eq
  intro i hi
  rw [BitVec.getLsbD_extractLsb', hlanes, getLsbD_wordOfBytes]
  interval_cases j
  · rw [if_pos (by omega)]; simp [hi]
  · rw [if_neg (by omega), if_pos (by omega)]; simp [hi]
  · rw [if_neg (by omega), if_neg (by omega), if_pos (by omega)]; simp [hi]
  · rw [if_neg (by omega), if_neg (by omega), if_neg (by omega)]; simp [hi]

end Sys2Proof.Machine
end

section
/-! PROOFS of the family `10_state`: the invariant of `OUTLEN`, `OUT` and `STATUS` (spec/10_state.md R34, R37), the
parameters (R42) and the command word (R36). -/

namespace Sys2Proof.Machine

/-- The invariant speaks of `OUTLEN`, `OUT` and `STATUS` alone. -/
theorem BlockInv.congr {s t : State} (h : BlockInv s) (hlen : t.outlen = s.outlen) (hout : t.out = s.out)
    (hst : t.status = s.status) : BlockInv t := by
  simpa only [BlockInv, hlen, hout, hst] using h

theorem BlockInv.of_sameBlock {s t : State} (h : BlockInv s) (hb : SameBlock s t) : BlockInv t := by
  obtain ⟨-, -, -, -, hlen, hout, -, -, hst, -⟩ := hb
  exact h.congr hlen hout hst

theorem blockInv_resetWith (p : Params) : BlockInv (State.resetWith p) := by
  refine ⟨by simp [State.resetWith], fun i hi _ => ?_, rfl, fun _ => rfl, fun h => nomatch h⟩
  simp [State.resetWith, bufByte, hi]

/-- A failure keeps the invariant: its code is one of R200's. -/
theorem BlockInv.fail {s : State} (h : BlockInv s) (c : ErrorCode) : BlockInv (fail s c) := by
  obtain ⟨hlen, hout, hbusy, -, -⟩ := h
  exact ⟨hlen, hout, hbusy, (fun herr => nomatch herr), fun _ => ⟨rfl, c.bits_range⟩⟩

/-- A success without a result keeps the invariant: it clears `ERR` and `CODE` together (R78). -/
theorem BlockInv.completeNoResult {s : State} (h : BlockInv s) : BlockInv (completeNoResult s) := by
  obtain ⟨hlen, hout, hbusy, -, -⟩ := h
  exact ⟨hlen, hout, hbusy, fun _ => rfl, fun herr => nomatch herr⟩

/-- A result of at most 64 bytes keeps the invariant: `Complete` zeroes the rest of `OUT` (R78). -/
theorem BlockInv.complete {s : State} (h : BlockInv s) (res : DWord) {bytes : List Byte} (hb : bytes.length ≤ 64) :
    BlockInv (complete s res bytes) := by
  obtain ⟨-, -, hbusy, -, -⟩ := h
  have hlen : (BitVec.ofNat 8 bytes.length).toNat = bytes.length := by
    rw [BitVec.toNat_ofNat, Nat.mod_eq_of_lt (by omega)]
  refine ⟨hlen.trans_le hb, fun i hi hge => ?_, hbusy, fun _ => rfl, fun herr => nomatch herr⟩
  rw [complete_outlen, hlen] at hge
  rw [complete_out, bufByte_bufOfBytes _ hi, List.getD_eq_default _ _ hge]

/-- Every command's answer keeps the invariant. -/
theorem Answers.blockInv {s t : State} (ha : Answers s (.next t)) (h : BlockInv s) : BlockInv t := by
  cases ha with
  | seeded => exact (h.congr rfl rfl rfl : BlockInv (setRng s (opaLow s))).completeNoResult
  | failed c => exact h.fail c
  | committed rng res bytes hlen => exact (h.congr rfl rfl rfl : BlockInv (setRng s rng)).complete res hlen

/-- Every step that has a next state keeps the invariant. -/
theorem StepTo.blockInv {s t : State} (hst : StepTo s t) (h : BlockInv s) : BlockInv t := by
  cases hst with
  | quiet hb => exact h.of_sameBlock hb
  | reset rest hp hb => exact (blockInv_resetWith s.params).of_sameBlock hb
  | store host o v rest h0 =>
    exact h.congr (memStore_outlen _ o v) (memStore_out _ o v) (memStore_status _ o v)
  | command host w rest hp hx => exact (answers_of_execute hx).blockInv (h.congr rfl rfl rfl)

/-- Every step that has a next state keeps the parameters (R42). -/
theorem StepTo.params {s t : State} (hst : StepTo s t) : t.params = s.params := by
  cases hst with
  | quiet hb =>
    obtain ⟨-, -, -, -, -, -, -, -, -, hparams⟩ := hb
    exact hparams
  | reset rest hp hb =>
    obtain ⟨-, -, -, -, -, -, -, -, -, hparams⟩ := hb
    exact hparams
  | store host o v rest h0 => exact memStore_params _ o v
  | command host w rest hp hx =>
    obtain ⟨-, -, -, -, hparams, -⟩ := (answers_of_execute hx).sameOperands
    exact hparams

/-- A step that takes neither a `CMD` write nor reset leaves `CMD` as it was (R36). -/
theorem StepTo.cmd {s t : State} (hst : StepTo s t) (hw : ∀ h w, s.pending.head? ≠ some (.access h (.write 0 4 w)))
    (hr : s.pending.head? ≠ some .reset) : t.cmd = s.cmd := by
  cases hst with
  | quiet hb =>
    obtain ⟨-, -, -, -, -, -, -, hcmd, -⟩ := hb
    exact hcmd
  | reset rest hp hb => exact absurd (by rw [hp]; rfl) hr
  | store host o v rest h0 => exact memStore_cmd_of_ne h0
  | command host w rest hp hx => exact absurd (by rw [hp]; rfl) (hw host w)

end Sys2Proof.Machine

open Sys2Proof Sys2Proof.Machine

/-- Settles O54: the step did one of four things to the registers, and each keeps the invariant. -/
theorem invariantKeptByEveryStep : Obligations.InvariantKeptByEveryStep :=
  fun _ _ hinv hstep => (stepTo_of_step hstep).blockInv hinv

/-- Settles O53. -/
theorem invariantHoldsAtReset : Obligations.InvariantHoldsAtReset :=
  ⟨blockInv_resetWith _, blockInv_resetWith⟩

/-- Settles O60. -/
theorem parametersNeverChange : Obligations.ParametersNeverChange :=
  fun _ _ hstep => (stepTo_of_step hstep).params

/-- Settles O8: a `CMD` write is `execute` on the state that holds the word, and no command writes `CMD`. -/
theorem cmdHoldsTheLastWordWritten : Obligations.CmdHoldsTheLastWordWritten := by
  refine ⟨fun s h w rest hp ho hb => ?_, fun s t hstep hw hr => (stepTo_of_step hstep).cmd hw hr, fun _ => rfl⟩
  have hrun := step_cmdWrite hp ho hb
  obtain ⟨t, ht, -, -, -, hcmd, -⟩ := (execute_answers w { afterWrite s h rest with cmd := w }).exists_next
  exact ⟨hrun, t, hrun.trans ht, hcmd⟩
end

section
/-! PROOFS of the family `10_state`: the words of the register window (spec/20_memory.md R51, R53, R56). -/

namespace Sys2Proof.Machine

/-- `STATUS` shows its four fields at bits 0, 1, 2 and 15:8, and 0 elsewhere (R37). -/
theorem statusWord_fields (st : Status) :
    st.word.getLsbD 0 = st.busy ∧ st.word.getLsbD 1 = st.err ∧ st.word.getLsbD 2 = st.everErr ∧
      st.word.extractLsb' 8 8 = st.code ∧
      ∀ i, 3 ≤ i ∧ i ≤ 7 ∨ 16 ≤ i ∧ i ≤ 31 → st.word.getLsbD i = false := by
  refine ⟨getLsbD_statusWord st 0, getLsbD_statusWord st 1, getLsbD_statusWord st 2, ?_, fun i hi => ?_⟩
  · apply BitVec.eq_of_getLsbD_eq
    intro i hi
    rw [BitVec.getLsbD_extractLsb', getLsbD_statusWord, if_neg (by omega), if_neg (by omega), if_neg (by omega),
      if_pos (by omega), Nat.add_sub_cancel_left, decide_eq_true hi, Bool.true_and]
  · rw [getLsbD_statusWord, if_neg (by omega), if_neg (by omega), if_neg (by omega), if_neg (by omega)]

/-- Byte lane `j` of word `k` of `IN` after a write of that word (R53, R56). -/
theorem bufByte_memStore_in (s : State) (v : Word) {k j : Nat} (hk : k < 16) (hj : j < 4) :
    bufByte (memStore s (0x040 + 4 * k) v).inp (4 * k + j) = v.extractLsb' (8 * j) 8 := by
  rw [memStore_in s v hk, bufByte_bufSetWord _ _ _ hk, if_pos (by omega), show (4 * k + j) % 4 = j by omega]

end Sys2Proof.Machine

open Sys2Proof Sys2Proof.Machine

/-- Settles O49, word by word: `STATUS` by its bits, `IN` and `OUT` by their byte lanes, the 64-bit registers by their
halves. -/
theorem windowWordsShowTheRegisters : Obligations.WindowWordsShowTheRegisters := by
  intro s v
  have houtlen : (memRead s 0x00C).toNat = s.outlen.toNat := by
    rw [memRead_outlen, BitVec.toNat_setWidth_of_le (by decide)]
  have hlanes : ∀ k < 16, ∀ j < 4,
      (memRead s (0x040 + 4 * k)).extractLsb' (8 * j) 8 = bufByte s.inp (4 * k + j) ∧
      (memRead s (0x080 + 4 * k)).extractLsb' (8 * j) 8 = bufByte s.out (4 * k + j) ∧
      bufByte (memStore s (0x040 + 4 * k) v).inp (4 * k + j) = v.extractLsb' (8 * j) 8 := by
    intro k hk j hj
    rw [memRead_in s hk, memRead_out s hk]
    exact ⟨extractLsb'_bufWord _ _ hj, extractLsb'_bufWord _ _ hj, bufByte_memStore_in s v hk hj⟩
  exact ⟨memRead_cmd s, statusWord_fields s.status, memRead_state s, houtlen, hlanes,
    (high_append_low _).symm, (high_append_low _).symm, (high_append_low _).symm⟩
end

section
/-! PROOFS of the family `10_state`: what a command reads (spec/10_state.md R40) and what moves `STATE` (R31). -/

namespace Sys2Proof.Machine

/-! ### What agreement on the operands gives -/

section
variable {i : Instr} {s s' : State}

theorem AgreeOnReads.refl (i : Instr) (s : State) : AgreeOnReads i s s := by simp [AgreeOnReads]

theorem AgreeOnReads.rng (h : AgreeOnReads i s s') (hg : i.isGenerator = true) : s.rng = s'.rng := by
  obtain ⟨hdraws, -⟩ := h
  exact (hdraws hg).left

theorem AgreeOnReads.variant (h : AgreeOnReads i s s') (hg : i.isGenerator = true) :
    s.params.variant = s'.params.variant := by
  obtain ⟨hdraws, -⟩ := h
  exact (hdraws hg).right

theorem AgreeOnReads.opaInt (h : AgreeOnReads i s s') (hr : i.readsOpa = true) : opaInt s = opaInt s' := by
  obtain ⟨-, hopa, -⟩ := h
  rw [Machine.opaInt, hopa hr, Machine.opaInt]

theorem AgreeOnReads.opaClamped (h : AgreeOnReads i s s') (hr : i.readsOpa = true) : opaClamped s = opaClamped s' := by
  rw [Machine.opaClamped, h.opaInt hr, Machine.opaClamped]

theorem AgreeOnReads.opaLow (h : AgreeOnReads i s s') (hr : i.readsOpaLow = true) : opaLow s = opaLow s' := by
  obtain ⟨-, -, hlow, -⟩ := h
  exact hlow hr

theorem AgreeOnReads.opbInt (h : AgreeOnReads i s s') (hr : i.readsOpb = true) : opbInt s = opbInt s' := by
  obtain ⟨-, -, -, hopb, -⟩ := h
  rw [Machine.opbInt, hopb hr, Machine.opbInt]

theorem AgreeOnReads.inBytes (h : AgreeOnReads i s s') : inBytes s i.inRead = inBytes s' i.inRead := by
  obtain ⟨-, -, -, -, hin⟩ := h
  exact List.map_congr_left fun j hj => hin j (List.mem_range.mp hj)

theorem AgreeOnReads.inDigits (h : AgreeOnReads i s s') : inDigits s i.inRead = inDigits s' i.inRead := by
  rw [Machine.inDigits, h.inBytes, Machine.inDigits]

end

/-! ### Two runs of one command -/

/-- The answers of command `i` from two states: the same failure, or the same values written. Only SEED seeds, and only a
generator draws. -/
inductive SameAnswer (i : Instr) (s s' : State) : Result → Result → Prop
  | seeded (hi : i = .seed) (w : Word) (hw : w = opaLow s) :
      SameAnswer i s s' (.next (completeNoResult (setRng s w))) (.next (completeNoResult (setRng s' w)))
  | failed (hne : i ≠ .seed) (c : ErrorCode) : SameAnswer i s s' (.next (fail s c)) (.next (fail s' c))
  | drawn (hg : i.isGenerator = true) (rng : Word) (res : DWord) (bytes : List Byte) :
      SameAnswer i s s' (.next (complete (setRng s rng) res bytes)) (.next (complete (setRng s' rng) res bytes))
  | encoded (hne : i ≠ .seed) (hg : i.isGenerator = false) (res : DWord) (bytes : List Byte) :
      SameAnswer i s s' (.next (complete s res bytes)) (.next (complete s' res bytes))

/-- Each command is a function of what it reads. -/
theorem exec_sameAnswer {i : Instr} {s s' : State} (h : AgreeOnReads i s s') : SameAnswer i s s' (exec i s) (exec i s') := by
  cases i with
  | seed =>
    simp only [exec, execSeed, ← h.opaLow rfl]
    exact .seeded rfl _ rfl
  | nextU32 =>
    simp only [exec, execNextU32, h.rng rfl, h.variant rfl]
    exact .drawn rfl _ _ _
  | nextF64 =>
    simp only [exec, execNextF64, h.rng rfl, h.variant rfl]
    exact .drawn rfl _ _ _
  | intIncl =>
    simp only [exec, execIntIncl, h.rng rfl, h.variant rfl, h.opaInt rfl, h.opbInt rfl]
    split
    · exact .failed (by nofun) _
    · exact .drawn rfl _ _ _
  | intBig =>
    simp only [exec, execIntBig, h.rng rfl, h.variant rfl, h.opaInt rfl, h.opbInt rfl]
    split
    · exact .failed (by nofun) _
    · exact .drawn rfl _ _ _
  | drawBytes len =>
    simp only [exec, execDrawBytes, h.rng rfl, h.variant rfl]
    split
    · exact .failed (by nofun) _
    · exact .drawn rfl _ _ _
  | uuid4Gen =>
    simp only [exec, execUuid4Gen, h.rng rfl, h.variant rfl]
    exact .drawn rfl _ _ _
  | uuid4Enc =>
    have hin : inBytes s 16 = inBytes s' 16 := h.inBytes
    simp only [exec, execUuid4Enc, hin]
    exact .encoded (by nofun) rfl _ _
  | ulidGen =>
    simp only [exec, execUlidGen, h.rng rfl, h.variant rfl]
    exact .drawn rfl _ _ _
  | ulidGenTs =>
    simp only [exec, execUlidGenTs, h.rng rfl, h.variant rfl, h.opaClamped rfl]
    exact .drawn rfl _ _ _
  | ulidEnc =>
    have hin : inBytes s 10 = inBytes s' 10 := h.inBytes
    simp only [exec, execUlidEnc, h.opaClamped rfl, hin]
    exact .encoded (by nofun) rfl _ _
  | suuidGen =>
    simp only [exec, execSuuidGen, h.rng rfl, h.variant rfl]
    exact .drawn rfl _ _ _
  | b58Enc len =>
    have hin : inBytes s len = inBytes s' len := h.inBytes
    simp only [exec, execB58Enc, hin]
    split
    · exact .failed (by nofun) _
    · exact .encoded (by nofun) rfl _ _
  | nanoid len =>
    simp only [exec, execNanoid, h.rng rfl, h.variant rfl]
    split
    · exact .failed (by nofun) _
    · exact .drawn rfl _ _ _
  | nanoidCa len alen =>
    have hin : inBytes s alen = inBytes s' alen := h.inBytes
    simp only [exec, execNanoidCa, h.rng rfl, h.variant rfl, hin]
    split
    · exact .failed (by nofun) _
    · split
      · exact .failed (by nofun) _
      · exact .drawn rfl _ _ _
  | objidGen =>
    simp only [exec, execObjidGen, h.rng rfl, h.variant rfl]
    exact .drawn rfl _ _ _
  | objidGenTs =>
    simp only [exec, execObjidGenTs, h.rng rfl, h.variant rfl, h.opaLow rfl]
    exact .drawn rfl _ _ _
  | objidEnc =>
    have hin : inBytes s 8 = inBytes s' 8 := h.inBytes
    simp only [exec, execObjidEnc, h.opaLow rfl, hin]
    exact .encoded (by nofun) rfl _ _
  | upcChk =>
    have hin : inDigits s 11 = inDigits s' 11 := h.inDigits
    simp only [exec, execUpcChk, completeCode, hin]
    split
    · exact .encoded (by nofun) rfl _ _
    · exact .failed (by nofun) _
  | eanChk =>
    have hin : inDigits s 12 = inDigits s' 12 := h.inDigits
    simp only [exec, execEanChk, completeCode, hin]
    split
    · exact .encoded (by nofun) rfl _ _
    · exact .failed (by nofun) _
  | upcGen =>
    simp only [exec, execUpcGen, completeCode, h.rng rfl, h.variant rfl]
    exact .drawn rfl _ _ _
  | eanGen =>
    simp only [exec, execEanGen, completeCode, h.rng rfl, h.variant rfl]
    exact .drawn rfl _ _ _

/-! ### What a command does to `STATE` -/

/-- A command that answers leaves `STATE`, or is SEED and sets it, or is a generator that succeeds (R31). -/
theorem exec_rng_cases {i : Instr} {s t : State} (h : exec i s = .next t) :
    t.rng = s.rng ∨ (i = .seed ∧ t.rng = BitVec.ofNat 32 s.opa.toNat) ∨ (i.isGenerator = true ∧ t.status.err = false) := by
  have hs := exec_sameAnswer (AgreeOnReads.refl i s)
  generalize exec i s = r at h hs
  cases hs with
  | seeded hi w hw => cases h; exact .inr (.inl ⟨hi, hw.trans (opaLow_eq s)⟩)
  | failed => cases h; exact .inl rfl
  | drawn hg => cases h; exact .inr (.inr ⟨hg, rfl⟩)
  | encoded => cases h; exact .inl rfl

/-- A word written to `CMD` leaves `STATE`, or it is a legal one whose command is SEED or a generator that succeeds. -/
theorem execute_rng_cases {w : Word} {s t : State} (h : execute w s = .next t) :
    t.rng = s.rng ∨ ∃ i, decodeWord w = .ok i ∧
      ((i = .seed ∧ t.rng = BitVec.ofNat 32 s.opa.toNat) ∨ (i.isGenerator = true ∧ t.status.err = false)) := by
  unfold execute at h
  split at h
  · rename_i i hdec
    exact (exec_rng_cases h).imp_right fun hi => ⟨i, hdec, hi⟩
  · cases h
    exact .inl rfl

end Sys2Proof.Machine

open Sys2Proof Sys2Proof.Machine

/-- Settles O58: the two runs answer alike, and each kind of answer writes the same values from both states. -/
theorem commandsReadOnlyTheirOperands : Obligations.CommandsReadOnlyTheirOperands := by
  intro i s s' h
  have hs := exec_sameAnswer h
  generalize exec i s = r, exec i s' = r' at hs
  cases hs with
  | seeded hi w hw =>
    exact ⟨_, _, rfl, rfl, rfl, rfl, fun _ hne => absurd hi hne, fun _ => rfl, fun _ hne => absurd hi hne⟩
  | failed hne c =>
    exact ⟨_, _, rfl, rfl, rfl, rfl, (fun herr => nomatch herr), fun hi => h.rng (hi.resolve_right hne), fun _ _ => rfl⟩
  | drawn hg rng res bytes =>
    exact ⟨_, _, rfl, rfl, rfl, rfl, fun _ _ => ⟨rfl, rfl, rfl⟩, fun _ => rfl, fun hng => by simp [hg] at hng⟩
  | encoded hne hg res bytes =>
    exact ⟨_, _, rfl, rfl, rfl, rfl, fun _ _ => ⟨rfl, rfl, rfl⟩, fun hi => h.rng (hi.resolve_right hne), fun _ _ => rfl⟩

/-- Settles O59: of the four things a step can do to the registers, only reset and a legal command reach `STATE`. -/
theorem engineStateChangesOnlyBySeedDrawsOrReset : Obligations.EngineStateChangesOnlyBySeedDrawsOrReset := by
  intro s t hstep
  cases stepTo_of_step hstep with
  | quiet hb =>
    obtain ⟨hrng, -⟩ := hb
    exact .inl hrng
  | reset rest hp hb =>
    obtain ⟨hrng, -⟩ := hb
    exact .inr (.inl ⟨rest, hp, hrng⟩)
  | store host o v rest h0 => exact .inl (memStore_rng _ o v)
  | command host w rest hp hx =>
    rcases execute_rng_cases hx with hkept | ⟨i, hdec, hi⟩
    · exact .inl hkept
    · exact .inr (.inr ⟨host, w, rest, i, hp, hdec, hi⟩)
end

section
/-! PROOFS of the family `20_memory`: what an access to the window and one outside it does (spec/20_memory.md R51, R54), and
what each word reads after a write (R51, R53, R55). -/

namespace Sys2Proof.Machine

/-! ### One step of each kind of access -/

theorem reachesWindow_of_isAlignedWord {a : Access} (ha : a.isAlignedWord = true) : a.reachesWindow = true := by
  obtain ⟨h0, hlt, -⟩ := of_decide_eq_true ha
  exact reachesWindow_eq_true.mpr (.inl ⟨h0, hlt⟩)

/-- A permitted access to a word of the window (R52, R56). -/
theorem step_windowAccess {s : State} {h : Nat} {a : Access} {rest : List HostEvent}
    (hp : s.pending = .access h a :: rest) (ho : s.owner = none ∨ s.owner = some h) (hb : s.status.busy = false)
    (ha : a.isAlignedWord = true) : step s = windowAccess a (takeUse h a { s with pending := rest }) := by
  have hown : ownedByOther { s with pending := rest } h = false := by
    rcases ho with ho | ho <;> simp [ownedByOther, ho]
  simp [step, hostStep, hp, hostEvent, hostAccess, reachesWindow_of_isAlignedWord ha, hown, hb, ha]

/-- An access of size 4 at a multiple of 4 in the window is the defined one (R52). -/
theorem isAlignedWord_of_offset {a : Access} {o : Nat} (hoff : a.offset = o) (hsize : a.size = 4) (hlt : o < 0x100)
    (h4 : o % 4 = 0) : a.isAlignedWord = true := by
  rw [Access.isAlignedWord, hoff, hsize, decide_eq_true_eq]
  omega

/-- A permitted read of a word (R54). -/
theorem step_readWord {s : State} {h o : Nat} {rest : List HostEvent} (hp : s.pending = .access h (.read o 4) :: rest)
    (ho : s.owner = none ∨ s.owner = some h) (hb : s.status.busy = false) (hlt : o < 0x100) (h4 : o % 4 = 0) :
    step s = .next { s with pending := rest, readLog := memRead s o :: s.readLog } :=
  step_windowAccess hp ho hb (isAlignedWord_of_offset rfl rfl hlt h4)

/-- A permitted write of a word of `OPA`, `OPB` or `IN` (R55, R61). -/
theorem step_storeWord {s : State} {h o : Nat} {v : Word} {rest : List HostEvent}
    (hp : s.pending = .access h (.write o 4 v) :: rest) (ho : s.owner = none ∨ s.owner = some h)
    (hb : s.status.busy = false) (hlt : o < 0x100) (h4 : o % 4 = 0) (h0 : o ≠ 0) (hw : isReadWrite o = true) :
    step s = .next (memStore (afterWrite s h rest) o v) := by
  rw [step_windowAccess hp ho hb (isAlignedWord_of_offset rfl rfl hlt h4), takeUse_of_readWrite _ _ _ _ hw]
  exact if_neg h0

/-- A permitted write of a read-only or reserved word (R55). -/
theorem step_ignoredWord {s : State} {h o : Nat} {v : Word} {rest : List HostEvent}
    (hp : s.pending = .access h (.write o 4 v) :: rest) (ho : s.owner = none ∨ s.owner = some h)
    (hb : s.status.busy = false) (hlt : o < 0x100) (h4 : o % 4 = 0) (h0 : o ≠ 0) (hw : isReadWrite o = false) :
    step s = .next { s with pending := rest } := by
  rw [step_windowAccess hp ho hb (isAlignedWord_of_offset rfl rfl hlt h4), takeUse_of_not_readWrite _ _ _ _ hw,
    windowAccess, Int.toNat_natCast, if_neg h0, memStore_of_not_readWrite _ v hw]

/-- An access that does not reach the window (R51). -/
theorem step_platformAccess {s : State} {h : Nat} {a : Access} {rest : List HostEvent}
    (hp : s.pending = .access h a :: rest) (ha : a.reachesWindow = false) :
    step s = platformAccess a { s with pending := rest } := by
  simp [step, hostStep, hp, hostEvent, hostAccess, ha]

/-- What the platform does with an access leaves the block and its owner alone (R51). -/
theorem platformAccess_frame (a : Access) (s : State) :
    ∃ t, platformAccess a s = .next t ∧ SameBlock s t ∧ t.pending = s.pending ∧ t.owner = s.owner := by
  cases a <;> exact ⟨_, rfl, by simp [SameBlock], rfl, rfl⟩

/-! ### What a word reads after a write -/

/-- The window shows the registers and nothing else. -/
theorem memRead_of_sameBlock {s t : State} (h : SameBlock s t) (o : Nat) : memRead t o = memRead s o := by
  obtain ⟨hrng, hopa, hopb, hres, houtlen, hout, hinp, hcmd, hstatus, -⟩ := h
  simp only [memRead, hrng, hopa, hopb, hres, houtlen, hout, hinp, hcmd, hstatus]

/-- Word `k` of a buffer after a write of word `k` (R53). -/
theorem bufWord_bufSetWord_same (b : Buffer) {k : Nat} (v : Word) (hk : k < 16) : bufWord (bufSetWord b k v) k = v := by
  apply BitVec.eq_of_getLsbD_eq
  intro i hi
  have hlane := extractLsb'_bufWord (bufSetWord b k v) k (j := i / 8) (by omega)
  rw [bufByte_bufSetWord _ _ _ hk, if_pos (by omega), show (4 * k + i / 8) % 4 = i / 8 by omega] at hlane
  have hbit := congrArg (BitVec.getLsbD · (i % 8)) hlane
  simpa [BitVec.getLsbD_extractLsb', Nat.mod_lt, Nat.div_add_mod] using hbit

theorem bufWord_bufSetWord_ne (b : Buffer) {k k' : Nat} (v : Word) (hk : k < 16) (hne : k' ≠ k) :
    bufWord (bufSetWord b k v) k' = bufWord b k' := by
  simp only [bufWord, bufByte_bufSetWord _ _ _ hk]
  rw [if_neg (by omega), if_neg (by omega), if_neg (by omega), if_neg (by omega)]

/-- The R/W words (R51). -/
theorem readWrite_cases {o : Nat} (h4 : o % 4 = 0) (hw : isReadWrite o = true) :
    o = 0x000 ∨ o = 0x010 ∨ o = 0x014 ∨ o = 0x018 ∨ o = 0x01C ∨ ∃ k < 16, o = 0x040 + 4 * k := by
  rcases isReadWrite_eq_true.mp hw with h0 | hop | hin
  · exact .inl h0
  · omega
  · exact .inr (.inr (.inr (.inr (.inr ⟨(o - 0x040) / 4, by omega, by omega⟩))))

/-- An R/W word reads what was written to it (R55). -/
theorem memRead_memStore_same (s : State) {o : Nat} (v : Word) (h4 : o % 4 = 0) (hw : isReadWrite o = true) :
    memRead (memStore s o v) o = v := by
  rcases readWrite_cases h4 hw with rfl | rfl | rfl | rfl | rfl | ⟨k, hk, rfl⟩
  · rfl
  · exact setLow_low _ v
  · exact setHigh_high _ v
  · exact setLow_low _ v
  · exact setHigh_high _ v
  · rw [memStore_in s v hk, memRead_in _ hk]
    exact bufWord_bufSetWord_same _ v hk

/-- A write of a word of `IN` is seen in no other word (R53, R55). -/
theorem memRead_memStore_in_ne (s : State) (v : Word) {k o : Nat} (hk : k < 16) (h4 : o % 4 = 0)
    (hne : o ≠ 0x040 + 4 * k) : memRead (memStore s (0x040 + 4 * k) v) o = memRead s o := by
  rw [memStore_in s v hk]
  by_cases hin : 0x040 ≤ o ∧ o ≤ 0x07C
  · obtain ⟨k', hk', rfl⟩ : ∃ k' < 16, o = 0x040 + 4 * k' := ⟨(o - 0x040) / 4, by omega, by omega⟩
    rw [memRead_in _ hk', memRead_in _ hk']
    exact bufWord_bufSetWord_ne _ v hk (by omega)
  · simp only [memRead, if_neg hin]

/-- A write is seen in no other word (R55): the halves of `OPA` and `OPB` are written apart, and so are the words of
`IN`. -/
theorem memRead_memStore_ne (s : State) {o o' : Nat} (v : Word) (h4 : o % 4 = 0) (h4' : o' % 4 = 0) (hne : o' ≠ o) :
    memRead (memStore s o v) o' = memRead s o' := by
  by_cases hw : isReadWrite o = true
  · rcases readWrite_cases h4 hw with rfl | rfl | rfl | rfl | rfl | ⟨k, hk, rfl⟩
    · simp only [memStore_cmdWord, memRead, if_neg hne]
    · simp only [memStore_opaLo, memRead, if_neg hne, setLow_high]
    · simp only [memStore_opaHi, memRead, if_neg hne, setHigh_low]
    · simp only [memStore_opbLo, memRead, if_neg hne, setLow_high]
    · simp only [memStore_opbHi, memRead, if_neg hne, setHigh_low]
    · exact memRead_memStore_in_ne s v hk h4' hne
  · rw [memStore_of_not_readWrite s v (by simpa using hw)]

end Sys2Proof.Machine

open Sys2Proof Sys2Proof.Machine

/-- Settles O47: the read's state has the registers it had, and the window shows nothing else. -/
theorem readsChangeNothing : Obligations.ReadsChangeNothing := by
  intro s h o rest hp ho hb hlt h4
  have hsame : SameBlock s { s with pending := rest, readLog := memRead s o :: s.readLog } := by simp [SameBlock]
  exact ⟨_, step_readWord hp ho hb hlt h4, hsame, rfl, rfl, rfl, memRead_of_sameBlock hsame,
    fun hr => memRead_reserved s (by omega)⟩

/-- Settles O48, for `CMD`, the operand words and the words that ignore the write. -/
theorem writesReplaceOneWord : Obligations.WritesReplaceOneWord := by
  intro s h o v rest hp ho hb hlt h4
  by_cases h0 : o = 0
  · subst h0
    exact step_cmdWrite hp ho hb
  rw [if_neg h0]
  by_cases hop : (0x010 ≤ o ∧ o ≤ 0x01C) ∨ (0x040 ≤ o ∧ o ≤ 0x07C)
  · have hw : isReadWrite o = true := isReadWrite_eq_true.mpr (.inr hop)
    refine ⟨_, step_storeWord hp ho hb hlt h4 h0 hw, memStore_pending _ o v, ?_⟩
    rw [if_pos hop]
    exact ⟨memRead_memStore_same _ v h4 hw, memStore_owner _ o v,
      fun o' _ h4' hne => memRead_memStore_ne _ v h4 h4' hne⟩
  · have hw : isReadWrite o = false := by simp [isReadWrite, h0, hop]
    refine ⟨_, step_ignoredWord hp ho hb hlt h4 h0 hw, rfl, ?_⟩
    rw [if_neg hop]
    exact ⟨by simp [SameBlock], rfl⟩

/-- Settles O51: such an access goes to the platform, which writes no register. -/
theorem accessesOutsideMissTheBlock : Obligations.AccessesOutsideMissTheBlock := by
  intro s h a rest hp hout
  have ha : a.reachesWindow = false := by
    rw [← Bool.not_eq_true, reachesWindow_eq_true]
    omega
  rw [step_platformAccess hp ha]
  exact platformAccess_frame a { s with pending := rest }
end

section
/-! PROOFS of the family `30_encoding`: the decoder accepts the words of the well-formed commands and no others
(spec/30_encoding.md R70 to R75). -/

namespace Sys2Proof

/-- The fields of an encoded command are those its row gives it (R73). -/
@[simp] theorem fieldsOf_encode (i : Instr) : fieldsOf (encode i) = i.fields := fieldsOf_wordOf _

theorem encode_eq_iff {i : Instr} {w : Word} : encode i = w ↔ i.fields = fieldsOf w := by
  constructor
  · rintro rfl
    rw [fieldsOf_encode]
  · intro h
    exact fieldsOf_injective ((fieldsOf_encode i).trans h)

theorem wellFormed_nanoidCa {len alen : Nat} : WellFormed (.nanoidCa len alen) ↔ len < 256 ∧ alen < 256 := by
  simp [WellFormed, Instr.wellFormed]

/-! ### What each shape of row accepts

The word's `RSV` bits are 0 and its opcode is `op`; the decoder's helper for the shape answers `i`. -/

section
variable {f : Fields} {op : Nat} {i : Instr}

theorem op_eq_of_toNat (hop : f.op.toNat = op) : f.op = BitVec.ofNat 8 op := by
  rw [← hop, BitVec.ofNat_toNat, BitVec.setWidth_eq]

/-- A row with no free field and `TS = CA = 0`. -/
theorem wellFormed_fields_of_decodePlain {j : Instr} (hrsv : f.rsv = 0) (hop : f.op.toNat = op)
    (hj : j.fields = .plain (BitVec.ofNat 8 op)) (hwf : WellFormed j) (h : decodePlain f j = .ok i) :
    WellFormed i ∧ i.fields = f := by
  obtain ⟨⟨hlen, halen, hts, hca⟩, rfl⟩ := decodePlain_ok.mp h
  refine ⟨hwf, hj.trans ?_⟩
  rw [← op_eq_of_toNat hop]
  cases f
  simp_all [Fields.plain]

/-- A row whose `LEN` is free. -/
theorem wellFormed_fields_of_decodeLen {j : Nat → Instr} (hrsv : f.rsv = 0) (hop : f.op.toNat = op)
    (hj : ∀ n, (j n).fields = { Fields.plain (BitVec.ofNat 8 op) with len := BitVec.ofNat 8 n })
    (hwf : ∀ n < 256, WellFormed (j n)) (h : decodeLen f j = .ok i) : WellFormed i ∧ i.fields = f := by
  obtain ⟨⟨halen, hts, hca⟩, rfl⟩ := decodeLen_ok.mp h
  refine ⟨hwf _ f.len.isLt, (hj _).trans ?_⟩
  rw [← op_eq_of_toNat hop]
  cases f
  simp_all [Fields.plain]

/-- An opcode with a row for `TS = 0` and one for `TS = 1`. -/
theorem wellFormed_fields_of_decodeTs {j0 j1 : Instr} (hrsv : f.rsv = 0) (hop : f.op.toNat = op)
    (hj0 : j0.fields = .plain (BitVec.ofNat 8 op)) (hj1 : j1.fields = { Fields.plain (BitVec.ofNat 8 op) with ts := 1 })
    (hwf0 : WellFormed j0) (hwf1 : WellFormed j1) (h : decodeTs f j0 j1 = .ok i) : WellFormed i ∧ i.fields = f := by
  obtain ⟨⟨hlen, halen, hca⟩, hi⟩ := decodeTs_ok.mp h
  rw [← op_eq_of_toNat hop] at hj0 hj1
  split at hi
  · subst hi
    refine ⟨hwf0, hj0.trans ?_⟩
    cases f
    simp_all [Fields.plain]
  · subst hi
    have hts : f.ts = 1 := by bv_omega
    refine ⟨hwf1, hj1.trans ?_⟩
    cases f
    simp_all [Fields.plain]

/-- The nanoid opcode. -/
theorem wellFormed_fields_of_decodeNanoid (hrsv : f.rsv = 0) (hop : f.op.toNat = 0x16) (h : decodeNanoid f = .ok i) :
    WellFormed i ∧ i.fields = f := by
  have hop' := op_eq_of_toNat hop
  obtain ⟨hts, ⟨hca, rfl⟩ | ⟨hca, halen, rfl⟩⟩ := decodeNanoid_ok.mp h
  · have hca' : f.ca = 1 := by bv_omega
    refine ⟨wellFormed_nanoidCa.mpr ⟨f.len.isLt, f.alen.isLt⟩, ?_⟩
    cases f
    simp_all [Instr.fields, Fields.plain]
  · refine ⟨decide_eq_true f.len.isLt, ?_⟩
    cases f
    simp_all [Instr.fields, Fields.plain]

end

/-! ### The decoder is the inverse of the encoder -/

/-- A command the decoder answers has exactly the fields it read. -/
theorem wellFormed_fields_of_decodeFields {f : Fields} {i : Instr} (h : decodeFields f = .ok i) :
    WellFormed i ∧ i.fields = f := by
  unfold decodeFields at h
  split at h
  · cases h
  rename_i hrsv
  rw [not_not] at hrsv
  split at h
  case h_6 hop =>
    exact wellFormed_fields_of_decodeLen (j := .drawBytes) hrsv hop (fun _ => rfl) (fun _ => decide_eq_true) h
  case h_9 hop => exact wellFormed_fields_of_decodeTs hrsv hop rfl rfl rfl rfl h
  case h_12 hop =>
    exact wellFormed_fields_of_decodeLen (j := .b58Enc) hrsv hop (fun _ => rfl) (fun _ => decide_eq_true) h
  case h_13 hop => exact wellFormed_fields_of_decodeNanoid hrsv hop h
  case h_14 hop => exact wellFormed_fields_of_decodeTs hrsv hop rfl rfl rfl rfl h
  case h_20 => cases h
  all_goals
    rename_i hop
    exact wellFormed_fields_of_decodePlain hrsv hop rfl rfl h

/-- The decoder reads each well-formed command back from its fields: no bit of `LEN` or `ALEN` is lost. -/
theorem decodeFields_fields {i : Instr} (h : WellFormed i) : decodeFields i.fields = .ok i := by
  cases i with
  | drawBytes len | b58Enc len =>
    have hlen : len < 256 := of_decide_eq_true h
    simp [decodeFields, decodeLen, Instr.fields, Fields.plain, Nat.mod_eq_of_lt hlen]
  | nanoid len =>
    have hlen : len < 256 := of_decide_eq_true h
    simp [decodeFields, decodeNanoid, Instr.fields, Fields.plain, Nat.mod_eq_of_lt hlen]
  | nanoidCa len alen =>
    obtain ⟨hlen, halen⟩ : len < 256 ∧ alen < 256 := wellFormed_nanoidCa.mp h
    simp [decodeFields, decodeNanoid, Instr.fields, Fields.plain, Nat.mod_eq_of_lt hlen, Nat.mod_eq_of_lt halen]
  | _ => rfl

/-- A word decodes to the well-formed command it encodes, and to no other. -/
theorem decodeWord_eq_ok_iff {w : Word} {i : Instr} : decodeWord w = .ok i ↔ WellFormed i ∧ encode i = w := by
  constructor
  · intro h
    obtain ⟨hwf, hf⟩ := wellFormed_fields_of_decodeFields h
    exact ⟨hwf, encode_eq_iff.mpr hf⟩
  · rintro ⟨hwf, rfl⟩
    rw [decodeWord, fieldsOf_encode, decodeFields_fields hwf]

end Sys2Proof

open Sys2Proof Sys2Proof.Machine

/-- Settles O1. -/
theorem decodeOfEncodeReturnsCommand : Obligations.DecodeOfEncodeReturnsCommand :=
  fun _ hwf => decodeWord_eq_ok_iff.mpr ⟨hwf, rfl⟩

/-- Settles O2. -/
theorem encodeOfDecodeReturnsWord : Obligations.EncodeOfDecodeReturnsWord :=
  fun _ _ h => (decodeWord_eq_ok_iff.mp h).symm

/-- Settles O4: nine words, each decoded by evaluation. -/
theorem knownWordsDecode : Obligations.KnownWordsDecode := by
  unfold Obligations.KnownWordsDecode
  decide
end

section
/-! PROOFS of the family `30_encoding`: the rows of the opcode map (spec/30_encoding.md R72, R73), each told by the
command it stands for. -/

namespace Sys2Proof

/-! ### The row of a command -/

/-- Both fields where they lie, bit by bit (R70). -/
def Fields.and (f g : Fields) : Fields :=
  { rsv := f.rsv &&& g.rsv, ca := f.ca &&& g.ca, ts := f.ts &&& g.ts, alen := f.alen &&& g.alen, len := f.len &&& g.len,
    op := f.op &&& g.op }

theorem fieldsOf_and (w m : Word) : fieldsOf (w &&& m) = (fieldsOf w).and (fieldsOf m) := by
  simp [fieldsOf, Fields.and, BitVec.extractLsb'_and]

/-- All bits of a word but, in `ALEN` and `LEN`, only these (R70). -/
def Fields.mask (alen len : BitVec 8) : Fields := { rsv := -1, ca := -1, ts := -1, alen, len, op := -1 }

/-- The bits the row of a command fixes (R73). -/
def Instr.fixed : Instr → Fields
  | .drawBytes _ | .b58Enc _ | .nanoid _ => .mask (-1) 0
  | .nanoidCa _ _ => .mask 0 0
  | _ => .mask (-1) (-1)

/-- The command with these operands, where its row frees the fields that hold them. -/
def Instr.withOperands (len alen : Nat) : Instr → Instr
  | .drawBytes _ => .drawBytes len
  | .b58Enc _ => .b58Enc len
  | .nanoid _ => .nanoid len
  | .nanoidCa _ _ => .nanoidCa len alen
  | i => i

/-- The row of a command (R73): the match is the command's word with the free fields 0. -/
def Instr.row (i : Instr) : Row := ⟨i.mnemonic, encode (i.withOperands 0 0), wordOf i.fixed⟩

/-- The 22 commands in the order of the table, operands 0. -/
def commands : List Instr :=
  [.seed, .nextU32, .nextF64, .intIncl, .intBig, .drawBytes 0, .uuid4Gen, .uuid4Enc, .ulidGen, .ulidGenTs, .ulidEnc,
   .suuidGen, .b58Enc 0, .nanoid 0, .nanoidCa 0 0, .objidGen, .objidGenTs, .objidEnc, .upcChk, .eanChk, .upcGen,
   .eanGen]

theorem rows_eq_map_row : rows = commands.map Instr.row := by decide

theorem withOperands_mem_commands (i : Instr) : i.withOperands 0 0 ∈ commands := by
  cases i <;> simp [Instr.withOperands, commands]

@[simp] theorem row_withOperands (i : Instr) (len alen : Nat) : (i.withOperands len alen).row = i.row := by
  cases i <;> rfl

theorem wellFormed_withOperands (i : Instr) {len alen : Nat} (hlen : len < 256) (halen : alen < 256) :
    WellFormed (i.withOperands len alen) := by
  cases i <;> simp [WellFormed, Instr.wellFormed, Instr.withOperands, hlen, halen]

/-- Every command's row stands in the table (R73). -/
theorem row_mem_rows (i : Instr) : i.row ∈ rows := by
  rw [rows_eq_map_row, ← row_withOperands i 0 0]
  exact List.mem_map_of_mem (withOperands_mem_commands i)

/-- Every row of the table is some command's (R73). -/
theorem exists_row_of_mem_rows {r : Row} (h : r ∈ rows) : ∃ i, Instr.row i = r := by
  rw [rows_eq_map_row] at h
  obtain ⟨i, -, hi⟩ := List.mem_map.mp h
  exact ⟨i, hi⟩

/-! ### A word matches the row of a command when it encodes that command with some operands -/

theorem and_255 (x : Byte) : x &&& 255#8 = x := BitVec.and_allOnes

/-- A mask keeps every field but `ALEN` and `LEN` whole. -/
theorem and_mask (f : Fields) (alen len : BitVec 8) :
    f.and (.mask alen len) = { f with alen := f.alen &&& alen, len := f.len &&& len } := by
  have h1 (b : BitVec 1) : b &&& -1 = b := BitVec.and_allOnes
  have h6 (b : BitVec 6) : b &&& -1 = b := BitVec.and_allOnes
  have h8 (b : BitVec 8) : b &&& -1 = b := BitVec.and_allOnes
  rw [Fields.and, Fields.mask, h1, h1, h6, h8]

/-- The fixed bits are right when the fields are the command's with the operands read from the free ones. -/
theorem and_fixed_eq_iff (i : Instr) (f : Fields) :
    (i.withOperands 0 0).fields = f.and i.fixed ↔ (i.withOperands f.len.toNat f.alen.toNat).fields = f := by
  obtain ⟨rsv, ca, ts, alen, len, op⟩ := f
  cases i <;> simp [and_mask, and_255, Instr.fixed, Instr.withOperands, Instr.fields, Fields.plain]

/-- R72, for the row of `i`. -/
theorem matches_row_iff (i : Instr) (w : Word) : w &&& i.row.mask = i.row.pattern ↔
    encode (i.withOperands (fieldsOf w).len.toNat (fieldsOf w).alen.toNat) = w := by
  have hfields : fieldsOf (w &&& i.row.mask) = (fieldsOf w).and i.fixed := by
    rw [fieldsOf_and, Instr.row, fieldsOf_wordOf]
  rw [encode_eq_iff, ← and_fixed_eq_iff, ← hfields]
  exact eq_comm.trans encode_eq_iff

/-- The operands of a well-formed command are its fields `LEN` and `ALEN`. -/
theorem withOperands_fields {i : Instr} (h : WellFormed i) :
    i.withOperands i.fields.len.toNat i.fields.alen.toNat = i := by
  cases i with
  | drawBytes len | b58Enc len | nanoid len =>
    have hlen : len < 256 := of_decide_eq_true h
    simp [Instr.withOperands, Instr.fields, Nat.mod_eq_of_lt hlen]
  | nanoidCa len alen =>
    obtain ⟨hlen, halen⟩ : len < 256 ∧ alen < 256 := wellFormed_nanoidCa.mp h
    simp [Instr.withOperands, Instr.fields, Nat.mod_eq_of_lt hlen, Nat.mod_eq_of_lt halen]
  | _ => rfl

/-! ### Matching a row and decoding to its command are the same -/

section
variable {w : Word} {i : Instr}

/-- A decoded command's operands are the word's fields (R71). -/
theorem withOperands_of_decodeWord (h : decodeWord w = .ok i) :
    i.withOperands (w.toNat / 2 ^ 8 % 2 ^ 8) (w.toNat / 2 ^ 16 % 2 ^ 8) = i := by
  obtain ⟨hwf, hw⟩ := decodeWord_eq_ok_iff.mp h
  have hi := withOperands_fields hwf
  rw [encode_eq_iff.mp hw] at hi
  simpa [fieldsOf, Nat.shiftRight_eq_div_pow] using hi

theorem matches_row_of_decodeWord (h : decodeWord w = .ok i) : w &&& i.row.mask = i.row.pattern := by
  obtain ⟨hwf, hw⟩ := decodeWord_eq_ok_iff.mp h
  rw [matches_row_iff, ← encode_eq_iff.mp hw, withOperands_fields hwf, hw]

/-- R72: a word matches a row of the table exactly when it decodes to a command of that row. -/
theorem matches_iff_decodeWord {r : Row} (hr : r ∈ rows) :
    w &&& r.mask = r.pattern ↔ ∃ i, decodeWord w = .ok i ∧ i.row = r := by
  constructor
  · obtain ⟨i, rfl⟩ := exists_row_of_mem_rows hr
    intro hm
    refine ⟨_, decodeWord_eq_ok_iff.mpr ⟨?_, (matches_row_iff i w).mp hm⟩, row_withOperands i _ _⟩
    exact wellFormed_withOperands i (BitVec.isLt _) (BitVec.isLt _)
  · rintro ⟨i, hi, rfl⟩
    exact matches_row_of_decodeWord hi

/-- R72: no word matches two rows, because it decodes to one command only. -/
theorem row_unique {r r' : Row} (hr : r ∈ rows) (hr' : r' ∈ rows) (hm : w &&& r.mask = r.pattern)
    (hm' : w &&& r'.mask = r'.pattern) : r = r' := by
  obtain ⟨i, hi, rfl⟩ := (matches_iff_decodeWord hr).mp hm
  obtain ⟨i', hi', rfl⟩ := (matches_iff_decodeWord hr').mp hm'
  cases hi.symm.trans hi'
  rfl

end

end Sys2Proof

namespace Sys2Proof.Machine

theorem execute_of_ok {w : Word} {i : Instr} (h : decodeWord w = .ok i) (s : State) : execute w s = exec i s := by
  rw [execute, h]

/-- An illegal word fails with `ILLEGAL_COMMAND` (R72, R202, R206). -/
theorem execute_of_error {w : Word} {e : Reject} (h : decodeWord w = .error e) (s : State) :
    execute w s = .next (failed s 2) := by
  rw [execute, h]
  exact congrArg _ (fail_eq_failed s .illegalCommand)

end Sys2Proof.Machine

open Sys2Proof Sys2Proof.Machine

/-- Settles O3: the row of a legal word is that of the command it decodes to. -/
theorem wordLegalIffExactlyOneRowMatches : Obligations.WordLegalIffExactlyOneRowMatches := by
  refine ⟨fun w => ⟨?_, ?_⟩, fun w r hr r' hr' => row_unique hr hr', fun w s hno => ?_⟩
  · rintro ⟨i, hi⟩
    have hm := matches_row_of_decodeWord hi
    exact ⟨i.row, row_mem_rows i, hm, fun r' hr' hm' => row_unique hr' (row_mem_rows i) hm' hm⟩
  · rintro ⟨r, hr, hm, -⟩
    obtain ⟨i, hi, -⟩ := (matches_iff_decodeWord hr).mp hm
    exact ⟨i, hi⟩
  · cases hd : decodeWord w with
    | ok i => exact absurd (matches_row_of_decodeWord hd) (hno _ (row_mem_rows i))
    | error e => exact execute_of_error hd s

/-- Settles O5: the row is that of the command, and the operands are those its free fields hold. -/
theorem decodedOperandsAreTheWordsFields : Obligations.DecodedOperandsAreTheWordsFields := by
  intro w i hi
  have hops := withOperands_of_decodeWord hi
  refine ⟨⟨i.row, row_mem_rows i, rfl, matches_row_of_decodeWord hi⟩, ?_, ?_⟩
  · rintro n (rfl | rfl | rfl)
    all_goals
      cases hops
      rfl
  · rintro n a rfl
    cases hops
    exact ⟨rfl, rfl⟩

/-- Settles O6. -/
theorem stepRunsTheDecodedCommand : Obligations.StepRunsTheDecodedCommand :=
  fun _ _ _ _ _ hp ho hb hi => (step_cmdWrite hp ho hb).trans (execute_of_ok hi _)

/-- Settles O7. -/
theorem stepOfAnIllegalWordFails : Obligations.StepOfAnIllegalWordFails :=
  fun _ _ _ _ _ hp ho hb he => (step_cmdWrite hp ho hb).trans (execute_of_error he _)
end

section
/-! PROOFS of the family `30_encoding`: committing a result (spec/30_encoding.md R78). -/

open Sys2Proof Sys2Proof.Machine

/-- Settles O27: a length of at most 64 fits `OUTLEN`, and `OUT` is read byte by byte. -/
theorem completeWritesResultAndOut : Obligations.CompleteWritesResultAndOut := by
  intro s res bytes hlen
  have houtlen : (complete s res bytes).outlen.toNat = bytes.length := by
    rw [complete_outlen, BitVec.toNat_ofNat, Nat.mod_eq_of_lt (by omega)]
  have hout : ∀ i < 64, bufByte (complete s res bytes).out i = if i < bytes.length then bytes.getD i 0 else 0x00 := by
    intro i hi
    rw [complete_out, bufByte_bufOfBytes bytes hi]
    split
    · rfl
    · exact List.getD_eq_default _ _ (by omega)
  exact ⟨rfl, houtlen, hout, rfl, rfl, by simp [SameOperands], rfl⟩
end

section
/-! PROOFS of the family `40_engine`: `Advance`, the two mixers and the engine commands (spec/40_engine.md R100 to R107). -/

namespace Sys2Proof.Machine

/-! ### One mixing round as arithmetic modulo `2^32` -/

/-- `t ^ (t >> n)` in exact arithmetic. -/
theorem toNat_xor_ushiftRight (t : Word) (n : Nat) : (t ^^^ (t >>> n)).toNat = t.toNat ^^^ (t.toNat / 2 ^ n) := by
  rw [BitVec.toNat_xor, BitVec.toNat_ushiftRight, Nat.shiftRight_eq_div_pow]

/-- `mul32(t ^ (t >> n), t | m)`, the step both rounds of both mixers share (R101, R102). -/
theorem toNat_mixRound (t m : Word) (n : Nat) :
    ((t ^^^ (t >>> n)) * (t ||| m)).toNat = ((t.toNat ^^^ (t.toNat / 2 ^ n)) * (t.toNat ||| m.toNat)) % 2 ^ 32 := by
  rw [BitVec.toNat_mul, toNat_xor_ushiftRight, BitVec.toNat_or]

/-- The word 0 mixes to 0 in both variants (R105). -/
theorem mix_zero (v : MixerVariant) : mix v 0 = 0 := by
  cases v <;> decide

/-! ### What each engine command leaves -/

/-- A result with no bytes leaves `OUTLEN` 0 and `OUT` zero (R78). -/
theorem committed_nil (s : State) (rng : Word) (res : DWord) :
    committed s rng res [] =
      { s with
        rng := rng
        res := res
        outlen := 0
        out := Vector.replicate 64 0
        status := { busy := s.status.busy, err := false, everErr := s.status.everErr, code := 0 } } := by
  rw [committed, bufOfBytes_nil]
  rfl

theorem exec_seed (s : State) : exec .seed s = .next (completeNoResult (setRng s (opaLow s))) := rfl

/-- NEXT_U32 commits one draw, zero-extended (R105). -/
theorem exec_nextU32 (s : State) : exec .nextU32 s =
    .next (committed s (kthState s.rng 1) ((kthDraw s.params.variant s.rng 1).setWidth 64) []) := by
  rw [exec, execNextU32, draw_eq, complete_setRng]

/-- NEXT_F64 commits the pattern of one draw (R107). -/
theorem exec_nextF64 (s : State) : exec .nextF64 s =
    .next (committed s (kthState s.rng 1) (f64Bits (kthDraw s.params.variant s.rng 1)) []) := by
  rw [exec, execNextF64, draw_eq, complete_setRng]

end Sys2Proof.Machine

open Sys2Proof Sys2Proof.Machine

/-- Settles O9. -/
theorem advanceAddsWeylModulo : Obligations.AdvanceAddsWeylModulo := by
  intro w
  rw [advance, BitVec.toNat_add, weyl_toNat]

/-- Settles O10: two rounds and a shift, each as arithmetic. -/
theorem mixDocIsTwoRoundsAndAShift : Obligations.MixDocIsTwoRoundsAndAShift := by
  intro s
  simp only [mix, mixDoc, toNat_xor_ushiftRight, toNat_mixRound]
  rfl

/-- Settles O11: the second round's product is added to its input before the xor. -/
theorem mixMulberryAddsTheProductBack : Obligations.MixMulberryAddsTheProductBack := by
  intro s
  refine ⟨?_, rfl⟩
  simp only [mix, mixMulberry, toNat_xor_ushiftRight]
  simp only [BitVec.toNat_xor, BitVec.toNat_add, toNat_mixRound]
  rfl

/-- Settles O13: the low word of `OPA` is `OPA` modulo `2^32`. -/
theorem seedSetsTheState : Obligations.SeedSetsTheState := by
  refine ⟨by decide, fun s => ?_⟩
  rw [exec_seed, opaLow_eq]
  rfl

/-- Settles O14: a draw committed with no bytes. -/
theorem nextU32DrawsOneWord : Obligations.NextU32DrawsOneWord := by
  refine ⟨by decide, fun s => ?_, mix_zero⟩
  rw [exec_nextU32, committed_nil, kthDraw, kthState_one_add, BitVec.ofNat_toNat]

/-- Settles O16. -/
theorem nextF64DrawsOneFloat : Obligations.NextF64DrawsOneFloat := by
  refine ⟨by decide, fun s => ?_⟩
  rw [exec_nextF64, kthDraw, kthState_one_add]
end

section
/-! PROOFS of the family `40_engine`: the sequence of states runs through every word and closes after exactly `2^32` draws,
because the Weyl increment is odd (spec/40_engine.md R108). -/

namespace Sys2Proof.Machine

/-- `k` advances, without a mixer. -/
theorem iterate_advance (u : Word) (k : Nat) : advance^[k] u = kthState u k := iterate_draw .doc u k

/-- The inverse of `WEYL` modulo `2^32`: it is odd. -/
def weylInv : Word := 0xDC58AA5D

theorem weylInv_mul_weyl : weylInv * 0x6D2B79F5#32 = 1#32 := by decide

/-- Every word is a state of the sequence: solve `u + k * WEYL = w` for `k`. -/
theorem exists_kthState_eq (u w : Word) : ∃ k < 2 ^ 32, kthState u k = w := by
  refine ⟨((w - u) * weylInv).toNat, BitVec.isLt _, ?_⟩
  calc kthState u ((w - u) * weylInv).toNat
      = u + (w - u) * weylInv * 0x6D2B79F5#32 := by rw [kthState, BitVec.ofNat_toNat, BitVec.setWidth_eq]
    _ = u + (w - u) * (weylInv * 0x6D2B79F5#32) := by rw [BitVec.mul_assoc]
    _ = w := by rw [weylInv_mul_weyl, BitVec.mul_one, BitVec.add_comm, BitVec.sub_add_cancel]

/-- The sequence is back at its start exactly after the multiples of `2^32`. -/
theorem kthState_eq_self_iff (u : Word) (n : Nat) : kthState u n = u ↔ 2 ^ 32 ∣ n := by
  have hmul : BitVec.ofNat 32 n * 0x6D2B79F5#32 = 0 ↔ 2 ^ 32 ∣ n * 0x6D2B79F5 := by
    rw [Nat.dvd_iff_mod_eq_zero, ← BitVec.ofNat_mul, ← BitVec.toNat_inj, BitVec.toNat_ofNat]
    rfl
  have hodd : Nat.Coprime (2 ^ 32) 0x6D2B79F5 := by norm_num
  rw [kthState, BitVec.add_right_eq_self, ← hodd.dvd_mul_right]
  exact hmul

end Sys2Proof.Machine

open Sys2Proof Sys2Proof.Machine

/-- Settles O12: `k` advances make `kthState u k`, and the increment has an inverse modulo `2^32`. -/
theorem stateSequenceHasFullPeriod : Obligations.StateSequenceHasFullPeriod := by
  refine ⟨fun v u k => ?_, fun u w => ?_, fun u n => ?_⟩
  · rw [iterate_draw, draw_kthState]
    exact ⟨rfl, rfl⟩
  · simpa only [iterate_advance] using exists_kthState_eq u w
  · rw [iterate_advance]
    exact kthState_eq_self_iff u n
end

section
/-! PROOFS of the family `40_engine`: the binary64 pattern of a word over `2^32` (spec/40_engine.md R106). -/

namespace Sys2Proof.Machine

theorem log2_toNat_lt {u : Word} (hu : u ≠ 0) : u.toNat.log2 < 32 :=
  (Nat.log2_lt (BitVec.toNat_ne.mp hu)).mpr u.isLt

/-- A word that is not 0, shifted up so that its leading bit is bit 52, lies in `[2^52, 2^53)`: no bit is lost. -/
theorem significand_range {u : Word} (hu : u ≠ 0) :
    2 ^ 52 ≤ u.toNat <<< (52 - u.toNat.log2) ∧ u.toNat <<< (52 - u.toNat.log2) < 2 ^ 53 := by
  have hlog := log2_toNat_lt hu
  have hlead : 2 ^ u.toNat.log2 * 2 ^ (52 - u.toNat.log2) = 2 ^ 52 := by rw [← pow_add, Nat.add_sub_cancel' (by omega)]
  have hlow : 2 ^ u.toNat.log2 ≤ u.toNat := Nat.log2_self_le (BitVec.toNat_ne.mp hu)
  have hhigh : u.toNat < 2 ^ u.toNat.log2 * 2 := Nat.lt_log2_self
  rw [Nat.shiftLeft_eq]
  constructor
  · calc 2 ^ 52 = 2 ^ u.toNat.log2 * 2 ^ (52 - u.toNat.log2) := hlead.symm
      _ ≤ u.toNat * 2 ^ (52 - u.toNat.log2) := Nat.mul_le_mul_right _ hlow
  · calc u.toNat * 2 ^ (52 - u.toNat.log2)
      _ < 2 ^ u.toNat.log2 * 2 * 2 ^ (52 - u.toNat.log2) := Nat.mul_lt_mul_of_pos_right hhigh (by positivity)
      _ = 2 ^ 53 := by rw [Nat.mul_right_comm, hlead]; rfl

/-- The pattern as a number: sign 0, the biased exponent, and the significand without its leading bit. -/
theorem toNat_f64Bits {u : Word} (hu : u ≠ 0) :
    (f64Bits u).toNat = (991 + u.toNat.log2) * 2 ^ 52 + (u.toNat <<< (52 - u.toNat.log2) - 2 ^ 52) := by
  have hlog := log2_toNat_lt hu
  obtain ⟨hlow, hhigh⟩ := significand_range hu
  have hexp : (0#1 ++ BitVec.ofNat 11 (1023 + u.toNat.log2 - 32)).toNat = 991 + u.toNat.log2 := by
    rw [BitVec.toNat_append, BitVec.toNat_ofNat, BitVec.toNat_ofNat, Nat.zero_mod, Nat.zero_shiftLeft, Nat.zero_or]
    omega
  have hfrac : (BitVec.ofNat 52 (u.toNat <<< (52 - u.toNat.log2))).toNat =
      u.toNat <<< (52 - u.toNat.log2) - 2 ^ 52 := by
    rw [BitVec.toNat_ofNat]
    omega
  rw [f64Bits, if_neg hu, BitVec.toNat_append, hexp, hfrac, ← Nat.shiftLeft_add_eq_or_of_lt (by omega), Nat.shiftLeft_eq]

end Sys2Proof.Machine

open Sys2Proof Sys2Proof.Machine

/-- Settles O15: the exponent field is `991 + log2 u`, the significand `u` shifted up to bit 52. -/
theorem floatBitsAreExact : Obligations.FloatBitsAreExact := by
  refine ⟨by decide, by decide, fun u hu => ?_⟩
  have hlog := log2_toNat_lt hu
  obtain ⟨hlow, hhigh⟩ := significand_range hu
  have hbits := toNat_f64Bits hu
  have hexp : (f64Bits u).toNat / 2 ^ 52 % 2 ^ 11 = 991 + u.toNat.log2 := by omega
  have hfrac : 2 ^ 52 + (f64Bits u).toNat % 2 ^ 52 = u.toNat <<< (52 - u.toNat.log2) := by omega
  refine ⟨by omega, by omega, by omega, ?_⟩
  rw [hexp, hfrac, Nat.shiftLeft_eq, Nat.mul_assoc, Nat.mul_assoc, ← pow_add, ← pow_add]
  congr 2
  omega
end

section
/-! PROOFS of the family `41_sampler`: the limit is above half of the draws, so some draw is accepted, and what `SampleInt`
returns comes from the first one (spec/41_sampler.md R120 to R122). -/

namespace Sys2Proof.Machine

/-! ### The limit -/

/-- What the limit cuts off is below the span, and at most what the span leaves of `2^32`: below half of it (R122). -/
theorem limitOf_range {span : Nat} (hpos : 1 ≤ span) (hlt : span < 2 ^ 32) :
    2 ^ 31 + 1 ≤ limitOf span ∧ limitOf span ≤ 2 ^ 32 := by
  have hspan : 2 ^ 32 % span < span := Nat.mod_lt _ hpos
  have hrest : 2 ^ 32 % span ≤ 2 ^ 32 - span := Nat.mod_eq_sub_mod hlt.le ▸ Nat.mod_le _ _
  rw [limitOf]
  omega

/-- A power of two cuts nothing off (R122). -/
theorem limitOf_two_pow {e : Nat} (he : e ≤ 32) : limitOf (2 ^ e) = 2 ^ 32 := by
  rw [limitOf, Nat.mod_eq_zero_of_dvd (pow_dvd_pow 2 he), Nat.sub_zero]

theorem natCast_limitOf (span : Nat) : (limitOf span : Int) = 2 ^ 32 - 2 ^ 32 % (span : Int) := by
  have hle : 2 ^ 32 % span ≤ 2 ^ 32 := Nat.mod_le _ _
  rw [limitOf, Nat.cast_sub hle]
  norm_cast

/-! ### The span -/

theorem natCast_spanOf (lo hi : Int) : (spanOf lo hi : Int) = (hi - lo + 1) % 2 ^ 32 :=
  Int.toNat_of_nonneg (Int.emod_nonneg _ (by norm_num))

theorem spanOf_eq_zero_iff {lo hi : Int} : spanOf lo hi = 0 ↔ (hi - lo + 1) % 2 ^ 32 = 0 := by
  rw [← natCast_spanOf, Int.natCast_eq_zero]

theorem spanOf_lt (lo hi : Int) : spanOf lo hi < 2 ^ 32 := by
  have := natCast_spanOf lo hi
  omega

/-! ### The first accepted draw -/

/-- The state R122 names mixes below every limit. -/
theorem mix_acceptedState_lt (v : MixerVariant) : (mix v 0xDA56F3EA).toNat < 2 ^ 31 + 1 := by
  cases v <;> decide

/-- The states run through every word, so the one R122 names comes up within `2^32` draws. -/
theorem exists_accepted_draw (v : MixerVariant) (u : Word) {span : Nat} (hpos : 1 ≤ span) (hlt : span < 2 ^ 32) :
    ∃ k < 2 ^ 32, (kthDraw v u (k + 1)).toNat < limitOf span := by
  obtain ⟨k, hk, hstate⟩ := exists_kthState_eq (advance u) 0xDA56F3EA
  refine ⟨k, hk, ?_⟩
  rw [kthDraw, ← kthState_advance, hstate]
  exact (mix_acceptedState_lt v).trans_le (limitOf_range hpos hlt).1

/-- `SampleInt` over a span that is not degenerate reduces the first draw below the limit (R120). -/
theorem exists_sampleInt_eq (v : MixerVariant) {lo hi : Int} (u : Word) (hs : spanOf lo hi ≠ 0) :
    ∃ k < 2 ^ 32, (∀ j < k, limitOf (spanOf lo hi) ≤ (kthDraw v u (j + 1)).toNat) ∧
      (kthDraw v u (k + 1)).toNat < limitOf (spanOf lo hi) ∧
      sampleInt v lo hi u = (lo + ((kthDraw v u (k + 1)).toNat % spanOf lo hi : Nat), kthState u (k + 1)) := by
  obtain ⟨n, hn, hnacc⟩ := exists_accepted_draw v u (Nat.pos_of_ne_zero hs) (spanOf_lt lo hi)
  obtain ⟨k, hacc, hfirst⟩ := Nat.findX (p := fun k => (kthDraw v u (k + 1)).toNat < limitOf (spanOf lo hi)) ⟨n, hnacc⟩
  have hk : k < 2 ^ 32 := lt_of_le_of_lt (not_lt.mp fun hlt => hfirst n hlt hnacc) hn
  have hrej : ∀ j < k, limitOf (spanOf lo hi) ≤ (kthDraw v u (j + 1)).toNat := fun j hj => not_lt.mp (hfirst j hj)
  refine ⟨k, hk, hrej, hacc, ?_⟩
  rw [sampleInt, sampleStream, if_neg hs]
  exact sampleLoop_draw v lo _ _ k u hk hrej hacc

theorem sampledFrom_sampleInt (v : MixerVariant) (lo hi : Int) (u : Word) :
    SampledFrom v lo hi u (sampleInt v lo hi u).1 (sampleInt v lo hi u).2 := by
  simp only [SampledFrom, ← natCast_spanOf, ← natCast_limitOf, Int.natCast_eq_zero]
  split_ifs with hs
  · simp [sampleInt_of_span_zero v lo hi u hs]
  · obtain ⟨k, hk, hrej, hacc, heq⟩ := exists_sampleInt_eq v u hs
    refine ⟨k + 1, by omega, hk, fun j h1 hj => ?_, by exact_mod_cast hacc, ?_, ?_⟩
    · obtain ⟨i, rfl⟩ := Nat.exists_eq_add_of_le' h1
      exact_mod_cast hrej i (by omega)
    · rw [heq, Int.natCast_mod]
    · rw [heq]

/-- The span is at most the size of the range, so the value sampled lies in it (R129). -/
theorem SampledFrom.mem_range {v : MixerVariant} {lo hi : Int} {u u' : Word} {r : Int} (h : SampledFrom v lo hi u r u')
    (hle : lo ≤ hi) : lo ≤ r ∧ r ≤ hi := by
  simp only [SampledFrom] at h
  split_ifs at h with hs
  · obtain ⟨rfl, -⟩ := h
    exact ⟨le_rfl, hle⟩
  · obtain ⟨k, -, -, -, -, rfl, -⟩ := h
    have hpos : 0 < (hi - lo + 1) % 2 ^ 32 := lt_of_le_of_ne (Int.emod_nonneg _ (by norm_num)) (Ne.symm hs)
    have hlow := Int.emod_nonneg ((kthDraw v u k).toNat : Int) hpos.ne'
    have hhigh := Int.emod_lt_of_pos ((kthDraw v u k).toNat : Int) hpos
    omega

theorem sampleInt_mem_range (v : MixerVariant) {lo hi : Int} (u : Word) (hle : lo ≤ hi) :
    lo ≤ (sampleInt v lo hi u).1 ∧ (sampleInt v lo hi u).1 ≤ hi :=
  (sampledFrom_sampleInt v lo hi u).mem_range hle

end Sys2Proof.Machine

open Sys2Proof Sys2Proof.Machine

/-- Settles O17: the first accepted draw is the one reduced, and a degenerate span draws nothing. -/
theorem sampleIntReturnsFirstAcceptedDraw : Obligations.SampleIntReturnsFirstAcceptedDraw :=
  fun v lo hi u => ⟨sampledFrom_sampleInt v lo hi u, fun hs => sampleInt_of_span_zero v lo hi u (spanOf_eq_zero_iff.mpr hs)⟩

/-- Settles O18: the state R122 names is among the first `2^32`. -/
theorem samplerLoopAlwaysEnds : Obligations.SamplerLoopAlwaysEnds := by
  refine ⟨fun _ => limitOf_range, fun e he => limitOf_two_pow he.le, by decide, fun v u span hpos hlt => ?_⟩
  obtain ⟨k, hk, hacc⟩ := exists_accepted_draw v u hpos hlt
  exact ⟨k + 1, by omega, hk, hacc⟩
end

section
/-! PROOFS of the family `41_sampler`: the byte draws and the sampler commands (spec/41_sampler.md R124 to R129). -/

namespace Sys2Proof.Machine

/-! ### Byte draws -/

/-- The span 256 accepts every draw (R124). -/
theorem sampleInt_byte (v : MixerVariant) (u : Word) :
    sampleInt v 0 255 u = ((((kthDraw v u 1).toNat % 256 : Nat) : Int), kthState u 1) := by
  rw [sampleInt_of_limit v 0 255 u (n := 256) (by decide) (by decide) (limitOf_two_pow (e := 8) (by decide)), Int.zero_add]

/-- `DrawByte` keeps the low byte of one draw (R124). -/
theorem drawByte_eq (v : MixerVariant) (u : Word) : drawByte v u = ((kthDraw v u 1).setWidth 8, kthState u 1) := by
  have hlow : BitVec.ofNat 8 ((kthDraw v u 1).toNat % 256) = (kthDraw v u 1).setWidth 8 := by
    apply BitVec.eq_of_toNat_eq
    rw [BitVec.toNat_ofNat, BitVec.toNat_setWidth, Nat.mod_mod]
  rw [drawByte, sampleInt_byte, BitVec.ofInt_natCast, hlow]

/-- `DrawBytes` keeps the low bytes of its draws, in order (R125). -/
theorem drawBytes_eq (v : MixerVariant) (n : Nat) (u : Word) : drawBytes v n u = (lowBytes v u n, kthState u n) := by
  have h := repeatDraw_one_draw_each (drawByte v) (fun w => (kthDraw v w 1).setWidth 8) (drawByte_eq v) n u
  simpa only [kthDraw_kthState, drawBytes, lowBytes] using h

/-- Eight bytes, the first most significant (R127). -/
theorem beValue_lowBytes_eight (v : MixerVariant) (u : Word) :
    let b := fun i => (kthDraw v u (i + 1)).toNat % 256
    beValue (lowBytes v u 8) = b 0 * 2 ^ 56 + b 1 * 2 ^ 48 + b 2 * 2 ^ 40 + b 3 * 2 ^ 32 + b 4 * 2 ^ 24 + b 5 * 2 ^ 16 +
      b 6 * 2 ^ 8 + b 7 := by
  intro b
  have hlow : ∀ i, ((kthDraw v u (i + 1)).setWidth 8).toNat = b i := fun _ => BitVec.toNat_setWidth _ _
  simp only [beValue, lowBytes, List.foldl_map, hlow, List.range_succ_eq_map, List.range_zero, List.foldl_cons,
    List.foldl_nil]
  ring

/-! ### What each sampler command leaves -/

/-- INT_INCL commits the value sampled (R126). -/
theorem exec_intIncl_of_le {s : State} (h : s.opa.toInt ≤ s.opb.toInt) : exec .intIncl s =
    .next (committed s (sampleInt s.params.variant s.opa.toInt s.opb.toInt s.rng).2
      (BitVec.ofInt 64 (sampleInt s.params.variant s.opa.toInt s.opb.toInt s.rng).1) []) := by
  simp only [exec, execIntIncl, opaInt, opbInt, if_neg (not_lt.mpr h), complete_setRng]

theorem exec_intIncl_of_lt {s : State} (h : s.opb.toInt < s.opa.toInt) : exec .intIncl s = .next (failed s 1) := by
  rw [exec, execIntIncl, opaInt, opbInt, if_pos h, fail_eq_failed]
  rfl

/-- INT_BIG commits what it makes of the low bytes of eight draws (R127). -/
theorem exec_intBig_of_le {s : State} (h : s.opa.toInt ≤ s.opb.toInt) : exec .intBig s =
    .next (committed s (kthState s.rng 8)
      (BitVec.ofInt 64 (bigResult s.opa.toInt s.opb.toInt (lowBytes s.params.variant s.rng 8))) []) := by
  simp only [exec, execIntBig, opaInt, opbInt, if_neg (not_lt.mpr h), drawBytes_eq, complete_setRng]

theorem exec_intBig_of_lt {s : State} (h : s.opb.toInt < s.opa.toInt) : exec .intBig s = .next (failed s 1) := by
  rw [exec, execIntBig, opaInt, opbInt, if_pos h, fail_eq_failed]
  rfl

/-- DRAW_BYTES commits the low bytes of `LEN` draws (R128). -/
theorem exec_drawBytes_of_le {len : Nat} (s : State) (h : len ≤ 64) : exec (.drawBytes len) s =
    .next (committed s (kthState s.rng len) 0 (lowBytes s.params.variant s.rng len)) := by
  simp only [exec, execDrawBytes, if_neg (not_lt.mpr h), drawBytes_eq, complete_setRng]

theorem exec_drawBytes_of_lt {len : Nat} (s : State) (h : 64 < len) : exec (.drawBytes len) s = .next (failed s 3) := by
  rw [exec, execDrawBytes, if_pos h, fail_eq_failed]
  rfl

/-! ### Results in a range -/

/-- A remainder by the size of the range never passes its upper end (R129). -/
theorem bigResult_mem_range {lo hi : Int} (bytes : List Byte) (hle : lo ≤ hi) :
    lo ≤ bigResult lo hi bytes ∧ bigResult lo hi bytes ≤ hi := by
  have hpos : 0 < hi - lo + 1 := by omega
  have hlow := Int.emod_nonneg (beValue bytes : Int) hpos.ne'
  have hhigh := Int.emod_lt_of_pos (beValue bytes : Int) hpos
  rw [bigResult]
  omega

/-- A number between two signed operands is its own `i64` pattern's value (R126: it never overflows). -/
theorem toInt_ofInt_of_mem_range {a b : DWord} {r : Int} (h : a.toInt ≤ r ∧ r ≤ b.toInt) :
    (BitVec.ofInt 64 r).toInt = r :=
  BitVec.toInt_ofInt_eq_self (by decide) (a.le_toInt.trans h.1) (h.2.trans_lt b.toInt_lt)

end Sys2Proof.Machine

namespace Sys2Proof

/-- The word of DRAW_BYTES for any `LEN` (R70, R73). -/
theorem encode_drawBytes (len : Byte) : encode (.drawBytes len.toNat) = 0x0000#16 ++ len ++ 0x06#8 := by
  have hzero : 0#6 ++ 0#1 ++ 0#1 ++ 0#8 = 0#16 := by decide
  simp only [encode, Instr.fields, Fields.plain, wordOf, BitVec.ofNat_toNat, BitVec.setWidth_eq,
    BitVec.ofNat_eq_ofNat, hzero]

end Sys2Proof

open Sys2Proof Sys2Proof.Machine

/-- Settles O19: the low byte of a draw is what the span 256 reduces it to. -/
theorem drawByteIsLowByteOfOneDraw : Obligations.DrawByteIsLowByteOfOneDraw := by
  intro v u
  have hlow : (drawByte v u).1.toNat = (kthDraw v u 1).toNat % 256 := by rw [drawByte_eq, BitVec.toNat_setWidth]
  refine ⟨?_, rfl, ?_, ?_⟩
  · rw [hlow, sampleInt_byte]
  · rw [hlow, draw_eq]
  · rw [drawByte_eq, draw_eq]

/-- Settles O20. -/
theorem drawBytesAreLowBytesInOrder : Obligations.DrawBytesAreLowBytesInOrder := drawBytes_eq

/-- Settles O21: the value `SampleInt` returns is sampled and in the range. -/
theorem intInclCommitsASampledValue : Obligations.IntInclCommitsASampledValue := by
  refine ⟨by decide, fun s => ⟨exec_intIncl_of_lt, fun hle => ?_⟩⟩
  obtain ⟨hlow, hhigh⟩ := sampleInt_mem_range s.params.variant s.rng hle
  exact ⟨_, _, sampledFrom_sampleInt _ _ _ _, hlow, hhigh, exec_intIncl_of_le hle⟩

/-- Settles O22: the big-endian value of the eight bytes is the sum of the statement. -/
theorem intBigReducesEightBytes : Obligations.IntBigReducesEightBytes := by
  refine ⟨by decide, fun s => ⟨exec_intBig_of_lt, fun hle => ?_⟩⟩
  rw [exec_intBig_of_le hle, bigResult, beValue_lowBytes_eight]

/-- Settles O24: both results lie in the range, so `RES` holds them as signed numbers. -/
theorem integerResultsStayInRange : Obligations.IntegerResultsStayInRange := by
  intro s hle
  refine ⟨⟨_, exec_intIncl_of_le hle, ?_⟩, _, exec_intBig_of_le hle, ?_⟩
  · have hrange := sampleInt_mem_range s.params.variant s.rng hle
    simp only [committed, toInt_ofInt_of_mem_range hrange]
    refine ⟨hrange.1, hrange.2, fun hs => ?_⟩
    rw [sampleInt_of_span_zero _ _ _ _ (spanOf_eq_zero_iff.mpr hs)]
    exact ⟨rfl, rfl⟩
  · have hrange := bigResult_mem_range (lowBytes s.params.variant s.rng 8) hle
    simpa only [committed, toInt_ofInt_of_mem_range hrange] using hrange

/-- Settles O25: the decoder reads the word of every `LEN`, and the command checks it before it draws. -/
theorem drawBytesCommandFillsOut : Obligations.DrawBytesCommandFillsOut :=
  ⟨fun len => decodeWord_eq_ok_iff.mpr ⟨decide_eq_true len.isLt, encode_drawBytes len⟩,
    fun s _ => ⟨exec_drawBytes_of_le s, exec_drawBytes_of_lt s⟩⟩
end

section
/-! PROOFS of the family `42_encoders`: hex strings, and the identifiers written in hex (spec/42_encoders.md R140 to R144,
R158 to R160). -/

namespace Sys2Proof.Machine

/-! ### Characters and hex strings -/

/-- Inside its alphabet a lookup does not depend on the default. -/
theorem charAt_eq_getD {alphabet : List Char} {k : Nat} (c : Char) (h : k < alphabet.length) :
    charAt alphabet k = alphabet.getD k c := by
  rw [charAt, List.getD_eq_getElem _ _ h, List.getD_eq_getElem _ _ h]

theorem charAt_mem {alphabet : List Char} {k : Nat} (h : k < alphabet.length) : charAt alphabet k ∈ alphabet := by
  rw [charAt, List.getD_eq_getElem _ _ h]
  exact List.getElem_mem h

@[simp] theorem length_hexDigits : hexDigits.length = 16 := rfl

/-- Both nibbles of a byte index a hex digit. -/
theorem nibbles_lt (x : Byte) : x.toNat / 16 < hexDigits.length ∧ x.toNat % 16 < hexDigits.length := by
  rw [length_hexDigits]
  omega

theorem hex_cons (x : Byte) (bs : List Byte) :
    hex (x :: bs) = charAt hexDigits (x.toNat / 16) :: charAt hexDigits (x.toNat % 16) :: hex bs := rfl

/-- Two characters for byte `i`, high nibble first (R140). -/
theorem hex_getD (b : List Byte) {i : Nat} (h : i < b.length) :
    (hex b).getD (2 * i) '?' = hexDigits.getD ((b.getD i 0).toNat / 16) '?' ∧
    (hex b).getD (2 * i + 1) '?' = hexDigits.getD ((b.getD i 0).toNat % 16) '?' := by
  induction b generalizing i with
  | nil => exact absurd h (Nat.not_lt_zero i)
  | cons x bs ih =>
    rw [hex_cons]
    cases i with
    | zero =>
      obtain ⟨hhigh, hlow⟩ := nibbles_lt x
      exact ⟨charAt_eq_getD '?' hhigh, charAt_eq_getD '?' hlow⟩
    | succ i => exact ih (Nat.lt_of_succ_lt_succ h)

theorem mem_hexDigits_of_mem_hex {b : List Byte} {c : Char} (h : c ∈ hex b) : c ∈ hexDigits := by
  obtain ⟨x, -, hc⟩ := List.mem_flatMap.mp h
  obtain ⟨hhigh, hlow⟩ := nibbles_lt x
  obtain rfl | rfl : c = charAt hexDigits (x.toNat / 16) ∨ c = charAt hexDigits (x.toNat % 16) := by
    simpa [hexByte] using hc
  · exact charAt_mem hhigh
  · exact charAt_mem hlow

theorem ne_hyphen_of_mem_hexDigits {c : Char} (h : c ∈ hexDigits) : c ≠ '-' := by
  rintro rfl
  exact absurd h (by decide)

/-! ### The UUID pattern -/

theorem uuidPattern_getD_six {b : List Byte} (h : b.length = 16) :
    (uuidPattern b).getD 6 0 = (b.getD 6 0 &&& 0x0F) ||| 0x40 := by
  simp [uuidPattern, h]

theorem uuidPattern_getD_eight {b : List Byte} (h : b.length = 16) :
    (uuidPattern b).getD 8 0 = (b.getD 8 0 &&& 0x3F) ||| 0x80 := by
  simp [uuidPattern, h]

theorem uuidPattern_getD_ne (b : List Byte) {i : Nat} (h6 : i ≠ 6) (h8 : i ≠ 8) :
    (uuidPattern b).getD i 0 = b.getD i 0 := by
  simp [uuidPattern, h6.symm, h8.symm]

/-- The version nibble is 4 (R141). -/
theorem versionNibble (x : Byte) : ((x &&& 0x0F) ||| 0x40).extractLsb' 4 4 = 0b0100#4 := by
  decide +revert

/-- The variant bits are 10 (R141). -/
theorem variantBits (x : Byte) : ((x &&& 0x3F) ||| 0x80).extractLsb' 6 2 = 0b10#2 := by
  decide +revert

/-! ### The UUID string -/

theorem length_slice {h : List Char} {i j : Nat} (hj : j ≤ h.length) : (slice h i j).length = j - i := by
  rw [slice, List.length_take, List.length_drop]
  omega

theorem slice_append_slice (h : List Char) {i j k : Nat} (hij : i ≤ j) (hjk : j ≤ k) :
    slice h i j ++ slice h j k = slice h i k := by
  obtain ⟨m, rfl⟩ := Nat.exists_eq_add_of_le hij
  obtain ⟨n, rfl⟩ := Nat.exists_eq_add_of_le hjk
  rw [slice, slice, slice, Nat.add_sub_cancel_left, Nat.add_sub_cancel_left, Nat.add_assoc, Nat.add_sub_cancel_left,
    List.take_add, List.drop_drop]

theorem slice_getD (h : List Char) {i j k m : Nat} (hk : k < j - i) (hm : i + k = m) :
    (slice h i j).getD k '?' = h.getD m '?' := by
  rw [List.getD_eq_getElem?_getD, slice, List.getElem?_take_of_lt hk, List.getElem?_drop, hm, List.getD_eq_getElem?_getD]

theorem length_hex_uuidPattern {b : List Byte} (hb : b.length = 16) : (hex (uuidPattern b)).length = 32 := by
  rw [length_hex, length_uuidPattern, hb]

/-- A character behind a hyphen, the hyphen, or a character before it. -/
theorem getD_append_hyphen {l : List Char} {n : Nat} (hl : l.length = n) (t : List Char) (i : Nat) :
    (l ++ ['-'] ++ t).getD i '?' = if n < i then t.getD (i - n - 1) '?' else if i = n then '-' else l.getD i '?' := by
  have hl1 : (l ++ ['-']).length = n + 1 := by simp [hl]
  split_ifs with hlt heq
  · rw [List.getD_append_right _ _ _ _ (by omega), hl1, Nat.sub_sub]
  · rw [List.append_assoc, List.getD_append_right _ _ _ _ (by omega), hl, heq, Nat.sub_self]
    rfl
  · rw [List.append_assoc, List.getD_append _ _ _ _ (by omega)]

/-- Where a character of a UUID string that is no hyphen stands in the hex string: the hyphens before it taken off. -/
def hexIndex (i : Nat) : Nat :=
  if 23 < i then i - 4 else if 18 < i then i - 3 else if 13 < i then i - 2 else if 8 < i then i - 1 else i

/-- The characters of a UUID string (R142). -/
theorem uuidRender_getD {b : List Byte} (hb : b.length = 16) {i : Nat} (hi : i < 36) :
    (uuidRender b).getD i '?' = if i ∈ [8, 13, 18, 23] then '-' else (hex (uuidPattern b)).getD (hexIndex i) '?' := by
  have hlen := length_hex_uuidPattern hb
  simp only [uuidRender]
  rw [getD_append_hyphen (n := 23) (by simp [length_slice, hlen]),
    getD_append_hyphen (n := 18) (by simp [length_slice, hlen]),
    getD_append_hyphen (n := 13) (by simp [length_slice, hlen]),
    getD_append_hyphen (n := 8) (by simp [length_slice, hlen])]
  by_cases hh : i ∈ [8, 13, 18, 23]
  · rw [if_pos hh]
    obtain rfl | rfl | rfl | rfl : i = 8 ∨ i = 13 ∨ i = 18 ∨ i = 23 := by simpa using hh
    all_goals rfl
  · obtain ⟨h8, h13, h18, h23⟩ : i ≠ 8 ∧ i ≠ 13 ∧ i ≠ 18 ∧ i ≠ 23 := by simpa using hh
    rw [if_neg hh, if_neg h8, if_neg h13, if_neg h18, if_neg h23, hexIndex]
    split_ifs
    all_goals exact slice_getD _ (by omega) (by omega)

/-- Without its hyphens a UUID string is the hex string it groups (R142). -/
theorem uuidRender_filter {b : List Byte} (hb : b.length = 16) :
    (uuidRender b).filter (fun c => c ≠ '-') = hex (uuidPattern b) := by
  have hslice : ∀ i j, (slice (hex (uuidPattern b)) i j).filter (fun c => c ≠ '-') = slice (hex (uuidPattern b)) i j :=
    fun i j => List.filter_eq_self.mpr fun c hc =>
      decide_eq_true (ne_hyphen_of_mem_hexDigits (mem_hexDigits_of_mem_hex (List.mem_of_mem_drop (List.mem_of_mem_take hc))))
  have hhyphen : ['-'].filter (fun c => c ≠ '-') = [] := rfl
  simp only [uuidRender, List.filter_append, hslice, hhyphen, List.append_nil]
  rw [slice_append_slice _ (by decide) (by decide), slice_append_slice _ (by decide) (by decide),
    slice_append_slice _ (by decide) (by decide), slice_append_slice _ (by decide) (by decide), slice, List.drop_zero,
    List.take_of_length_le (length_hex_uuidPattern hb).le]

/-- Every index of a hex string holds a hex digit. -/
theorem hex_getD_mem_hexDigits {b : List Byte} {k : Nat} (hk : k < (hex b).length) : (hex b).getD k '?' ∈ hexDigits := by
  rw [List.getD_eq_getElem _ _ hk]
  exact mem_hexDigits_of_mem_hex (List.getElem_mem hk)

theorem hexIndex_lt {i : Nat} (hi : i < 36) : hexIndex i < 32 := by
  rw [hexIndex]
  split_ifs
  all_goals omega

/-! ### Bytes of an ObjectId -/

/-- Byte `i` of a word, most significant first, as a number (R158). -/
theorem toNat_beBytes_getD (w : Word) {i : Nat} (hi : i < 4) :
    ((beBytes w).getD i 0).toNat = w.toNat / 2 ^ (24 - 8 * i) % 2 ^ 8 := by
  interval_cases i
  all_goals exact (BitVec.extractLsb'_toNat _ _ _).trans (by rw [Nat.shiftRight_eq_div_pow])

/-- The nibbles of byte `j` of a word, most significant first, are the nibbles `2j` and `2j + 1` of the word. -/
theorem nibbles_beBytes_getD (w : Word) {j : Nat} (hj : j < 4) :
    ((beBytes w).getD j 0).toNat / 16 = w.toNat / 16 ^ (7 - 2 * j) % 16 ∧
    ((beBytes w).getD j 0).toNat % 16 = w.toNat / 16 ^ (7 - (2 * j + 1)) % 16 := by
  rw [toNat_beBytes_getD w hj]
  interval_cases j
  all_goals omega

/-! ### What the commands leave -/

theorem exec_uuid4Gen (s : State) : exec .uuid4Gen s =
    .next (committed s (kthState s.rng 16) 0 (ascii (uuidRender (lowBytes s.params.variant s.rng 16)))) := by
  rw [exec, execUuid4Gen, drawBytes_eq, complete_setRng]

theorem exec_uuid4Enc (s : State) : exec .uuid4Enc s = .next (committed s s.rng 0 (ascii (uuidRender (inBytes s 16)))) := by
  rw [exec, execUuid4Enc, complete_eq_committed]

theorem exec_objidGen (s : State) : exec .objidGen s =
    .next (committed s (kthState s.rng 9) 0 (ascii (objIdRender (kthDraw s.params.variant s.rng 1)
      (lowBytes s.params.variant (kthState s.rng 1) 8)))) := by
  rw [exec, execObjidGen, draw_eq, drawBytes_eq, kthState_add, complete_setRng]

theorem exec_objidGenTs (s : State) : exec .objidGenTs s =
    .next (committed s (kthState s.rng 8) 0 (ascii (objIdRender (opaLow s) (lowBytes s.params.variant s.rng 8)))) := by
  rw [exec, execObjidGenTs, drawBytes_eq, complete_setRng]

theorem exec_objidEnc (s : State) : exec .objidEnc s =
    .next (committed s s.rng 0 (ascii (objIdRender (opaLow s) (inBytes s 8)))) := by
  rw [exec, execObjidEnc, complete_eq_committed]

end Sys2Proof.Machine

open Sys2Proof Sys2Proof.Machine

/-- Settles O28: the nibbles of a byte are its quotient and remainder by 16. -/
theorem hexRendersHighNibbleFirst : Obligations.HexRendersHighNibbleFirst := by
  refine fun b => ⟨length_hex b, fun i hi => ?_⟩
  have hhigh : ∀ x : Byte, (x.extractLsb' 4 4).toNat = x.toNat / 16 := by decide
  have hlow : ∀ x : Byte, (x.extractLsb' 0 4).toNat = x.toNat % 16 := by decide
  rw [hhigh, hlow]
  exact hex_getD b hi

/-- Settles O29. -/
theorem uuidPatternForcesVersionAndVariant : Obligations.UuidPatternForcesVersionAndVariant := by
  intro b hb
  have h6 := uuidPattern_getD_six hb
  have h8 := uuidPattern_getD_eight hb
  refine ⟨by rw [length_uuidPattern, hb], h6, h8, fun i => uuidPattern_getD_ne b, ?_, ?_⟩
  · rw [h6, versionNibble]
  · rw [h8, variantBits]

/-- Settles O30: the characters at 14 and 19 are the high nibbles of the bytes 6 and 8. -/
theorem uuidStringHasItsShape : Obligations.UuidStringHasItsShape := by
  intro b hb
  have hlen : (uuidPattern b).length = 16 := by rw [length_uuidPattern, hb]
  have h6 : ∀ x : Byte, (x &&& 0x0F ||| 0x40).toNat / 16 = 4 := by decide
  have h8 : ∀ x : Byte, hexDigits.getD ((x &&& 0x3F ||| 0x80).toNat / 16) '?' ∈ ['8', '9', 'a', 'b'] := by decide
  refine ⟨length_uuidRender hb, fun i hi => ?_, ?_, ?_, fun i hi hh => ?_, uuidRender_filter hb⟩
  · have hlt : ∀ i ∈ [8, 13, 18, 23], i < 36 := by decide
    rw [uuidRender_getD hb (hlt i hi), if_pos hi]
  · rw [uuidRender_getD hb (by decide), if_neg (by decide)]
    have hdigit := (hex_getD (uuidPattern b) (i := 6) (by omega)).1
    rw [uuidPattern_getD_six hb, h6] at hdigit
    exact hdigit
  · rw [uuidRender_getD hb (by decide), if_neg (by decide)]
    have hdigit := (hex_getD (uuidPattern b) (i := 8) (by omega)).1
    rw [uuidPattern_getD_eight hb] at hdigit
    exact hdigit ▸ h8 _
  · rw [uuidRender_getD hb hi, if_neg hh]
    exact hex_getD_mem_hexDigits (length_hex_uuidPattern hb ▸ hexIndex_lt hi)

/-- Settles O31. -/
theorem uuidCommandsRenderTheirBytes : Obligations.UuidCommandsRenderTheirBytes :=
  ⟨by decide, by decide, fun s => ⟨exec_uuid4Gen s, exec_uuid4Enc s⟩⟩

/-- Settles O40: character `k` of the timestamp is its nibble `k`, from byte `k / 2`. -/
theorem objectIdRendersTimestampThenBytes : Obligations.ObjectIdRendersTimestampThenBytes := by
  intro ts b hb
  have hlen : (beBytes ts ++ b).length = 12 := by rw [List.length_append, length_beBytes, hb]
  refine ⟨length_objIdRender ts hb, fun k hk => ?_, fun i hi => ?_⟩
  · obtain ⟨j, hj⟩ := Nat.even_or_odd' k
    obtain ⟨hhigh, hlow⟩ := hex_getD (beBytes ts ++ b) (i := j) (by omega)
    obtain ⟨hnhigh, hnlow⟩ := nibbles_beBytes_getD ts (j := j) (by omega)
    rw [List.getD_append _ _ _ _ (by rw [length_beBytes]; omega)] at hhigh hlow
    obtain rfl | rfl := hj
    · rw [← hnhigh]
      exact hhigh
    · rw [← hnlow]
      exact hlow
  · obtain ⟨hhigh, hlow⟩ := hex_getD (beBytes ts ++ b) (i := 4 + i) (by omega)
    rw [List.getD_append_right _ _ _ _ (by rw [length_beBytes]; omega), length_beBytes, Nat.add_sub_cancel_left,
      Nat.mul_add] at hhigh hlow
    refine ⟨hhigh, ?_⟩
    rw [show 9 + 2 * i = 2 * 4 + 2 * i + 1 by omega]
    exact hlow

/-- Settles O41. -/
theorem objectIdCommandsRenderTheirFields : Obligations.ObjectIdCommandsRenderTheirFields := by
  refine ⟨by decide, by decide, by decide, fun s => ?_⟩
  rw [← opaLow_eq]
  exact ⟨exec_objidGen s, exec_objidGenTs s, exec_objidEnc s⟩
end

section
/-! PROOFS of the family `42_encoders`: ULIDs, bit by bit (spec/42_encoders.md R145 to R150). -/

namespace Sys2Proof.Machine

/-! ### The bits of a ULID -/

/-- Bit `n` from the left of a byte sequence read as one number (spec/20_memory.md R57). -/
theorem testBit_beValue (bytes : List Byte) {n : Nat} (h : n < 8 * bytes.length) :
    (beValue bytes).testBit (8 * bytes.length - 1 - n) = (bytes.getD (n / 8) 0).getMsbD (n % 8) := by
  induction bytes generalizing n with
  | nil => exact absurd h (Nat.not_lt_zero n)
  | cons x bs ih =>
    have hpow : 256 ^ bs.length = 2 ^ (8 * bs.length) := by rw [pow_mul]; rfl
    rw [List.length_cons] at h ⊢
    rw [beValue_cons, Nat.mul_comm, hpow, Nat.testBit_two_pow_mul_add _ (hpow ▸ beValue_lt bs)]
    by_cases hn : n < 8
    · rw [if_neg (by omega), Nat.div_eq_of_lt hn, Nat.mod_eq_of_lt hn, List.getD_cons_zero, BitVec.getMsbD,
        decide_eq_true hn, Bool.true_and, BitVec.getLsbD]
      congr 1
      omega
    · obtain ⟨m, rfl⟩ := Nat.exists_eq_add_of_le (not_lt.mp hn)
      rw [if_pos (by omega), Nat.add_div_left _ (by decide), Nat.add_mod_left, List.getD_cons_succ, ← ih (by omega)]
      congr 1
      omega

/-- Bit `n` from the left of the 130 bits the groups are cut from (R147). -/
theorem ulidBit_eq_testBit (ts : BitVec 48) {r : List Byte} (hr : r.length = 10) {n : Nat} (hn : n < 130) :
    ulidBit ts r n = (ulidValue ts r * 4).testBit (129 - n) := by
  have hlt : beValue r < 2 ^ 80 := by
    have := beValue_lt r
    rw [hr] at this
    omega
  rw [show ulidValue ts r * 4 = 2 ^ 2 * (2 ^ 80 * ts.toNat + beValue r) by rw [ulidValue]; ring, ulidBit]
  by_cases hzeros : n < 128
  · rw [Nat.testBit_two_pow_mul, decide_eq_true (by omega), Bool.true_and, Nat.testBit_two_pow_mul_add _ hlt]
    by_cases hts : n < 48
    · rw [if_pos hts, if_neg (by omega), BitVec.getMsbD, decide_eq_true hts, Bool.true_and, BitVec.getLsbD]
      congr 1
      omega
    · rw [if_neg hts, if_pos hzeros, if_pos (by omega), ← testBit_beValue r (by omega)]
      congr 1
      omega
  · rw [if_neg (by omega), if_neg hzeros, Nat.testBit_two_pow_mul, decide_eq_false (by omega), Bool.false_and]

/-- Five bits of a number, from bit `k` up. -/
theorem div_two_pow_mod_32 (x k : Nat) :
    x / 2 ^ k % 32 = (x.testBit (k + 4)).toNat * 16 + (x.testBit (k + 3)).toNat * 8 + (x.testBit (k + 2)).toNat * 4 +
      (x.testBit (k + 1)).toNat * 2 + (x.testBit k).toNat := by
  simp only [Nat.toNat_testBit, pow_add, ← Nat.div_div_eq_div_mul]
  omega

/-- Group `i` is the index `UlidRender` takes (R147). -/
theorem ulidGroup_eq (ts : BitVec 48) {r : List Byte} (hr : r.length = 10) {i : Nat} (hi : i < 26) :
    ulidGroup ts r i = ulidValue ts r * 4 / 2 ^ (125 - 5 * i) % 32 := by
  have hbit : ∀ j k, j + k = 4 → ulidBit ts r (5 * i + j) = (ulidValue ts r * 4).testBit (125 - 5 * i + k) := by
    intro j k hjk
    rw [ulidBit_eq_testBit ts hr (by omega)]
    congr 1
    omega
  have hfirst : ulidBit ts r (5 * i) = (ulidValue ts r * 4).testBit (125 - 5 * i + 4) := hbit 0 4 rfl
  have hlast : ulidBit ts r (5 * i + 4) = (ulidValue ts r * 4).testBit (125 - 5 * i) := hbit 4 0 rfl
  rw [div_two_pow_mod_32, ulidGroup, hfirst, hbit 1 3 rfl, hbit 2 2 rfl, hbit 3 1 rfl, hlast]

theorem ulidGroup_lt (ts : BitVec 48) {r : List Byte} (hr : r.length = 10) {i : Nat} (hi : i < 26) :
    ulidGroup ts r i < 32 := by
  rw [ulidGroup_eq ts hr hi]
  exact Nat.mod_lt _ (by decide)

/-- Character `i` is the symbol of group `i` (R147). -/
theorem ulidRender_getD (ts : BitVec 48) {r : List Byte} (hr : r.length = 10) {i : Nat} (hi : i < 26) :
    (ulidRender ts r).getD i '?' = charAt crock (ulidGroup ts r i) := by
  rw [ulidGroup_eq ts hr hi, ulidRender, List.getD_eq_getElem _ _ (by simpa using hi), List.getElem_map,
    List.getElem_range]

@[simp] theorem length_crock : crock.length = 32 := rfl

/-! ### Timestamps -/

/-- A drawn timestamp: 16 bits of the first draw, then the whole second one (R148). -/
theorem ulidSynthTs_eq (v : MixerVariant) (u : Word) : ulidSynthTs v u =
    (BitVec.ofNat 48 ((kthDraw v u 1).toNat % 2 ^ 16 * 2 ^ 32 + (kthDraw v u 2).toNat), kthState u 2) := by
  rw [ulidSynthTs, sampleInt_of_limit v 0 0xFFFF u (n := 2 ^ 16) (by decide) (by decide) (limitOf_two_pow (by decide)),
    Int.zero_add, draw_eq, kthDraw_kthState, kthState_add, ← BitVec.ofInt_natCast]
  norm_cast

/-! ### What the commands leave -/

theorem exec_ulidGen (s : State) : exec .ulidGen s = .next (committed s (kthState s.rng 12) 0 (ascii (ulidRender
    (BitVec.ofNat 48 ((kthDraw s.params.variant s.rng 1).toNat % 2 ^ 16 * 2 ^ 32 +
      (kthDraw s.params.variant s.rng 2).toNat))
    (lowBytes s.params.variant (kthState s.rng 2) 10)))) := by
  rw [exec, execUlidGen, ulidSynthTs_eq, drawBytes_eq, kthState_add, complete_setRng]

theorem exec_ulidGenTs (s : State) : exec .ulidGenTs s = .next (committed s (kthState s.rng 10) 0
    (ascii (ulidRender (opaClamped s) (lowBytes s.params.variant s.rng 10)))) := by
  rw [exec, execUlidGenTs, drawBytes_eq, complete_setRng]

theorem exec_ulidEnc (s : State) : exec .ulidEnc s =
    .next (committed s s.rng 0 (ascii (ulidRender (opaClamped s) (inBytes s 10)))) := by
  rw [exec, execUlidEnc, complete_eq_committed]

end Sys2Proof.Machine

open Sys2Proof Sys2Proof.Machine

/-- Settles O32. -/
theorem clampSaturatesAtBothEnds : Obligations.ClampSaturatesAtBothEnds := by
  intro t
  rw [clamp48]
  split_ifs with hneg hbig
  · rfl
  · decide
  · rw [BitVec.toNat_ofInt]
    omega

/-- Settles O33: five bits of the number the model shifts are five bits of the string. -/
theorem ulidCharactersAreFiveBitGroups : Obligations.UlidCharactersAreFiveBitGroups := by
  intro ts r hr
  refine ⟨length_ulidRender ts r, fun i hi => ?_, fun c hc => ?_, ?_⟩
  · rw [ulidRender_getD ts hr hi, charAt_eq_getD '?' (length_crock ▸ ulidGroup_lt ts hr hi)]
    rfl
  · obtain ⟨i, -, rfl⟩ := List.mem_map.mp hc
    exact charAt_mem (length_crock ▸ Nat.mod_lt _ (by decide))
  · have h3 : ulidBit ts r (5 * 25 + 3) = false := rfl
    have h4 : ulidBit ts r (5 * 25 + 4) = false := rfl
    rw [ulidGroup, h3, h4, Bool.toNat_false]
    omega

/-- Settles O34. -/
theorem ulidCommandsRenderTheirFields : Obligations.UlidCommandsRenderTheirFields :=
  ⟨by decide, by decide, by decide, fun s => ⟨exec_ulidGen s, exec_ulidGenTs s, exec_ulidEnc s⟩⟩
end

section
/-! PROOFS of the family `42_encoders`: base58 strings, by their value and their length (spec/42_encoders.md R151 to R155). -/

namespace Sys2Proof.Machine

/-! ### The value of a byte sequence -/

/-- The big-endian value weighs byte `i` by its distance from the end (spec/20_memory.md R57). -/
theorem beValue_eq_sum (b : List Byte) : beValue b =
    ((List.range b.length).map fun i => (b.getD i 0).toNat * 2 ^ (8 * (b.length - 1 - i))).sum := by
  induction b with
  | nil => rfl
  | cons x bs ih =>
    have hpow : 256 ^ bs.length = 2 ^ (8 * bs.length) := by rw [pow_mul]; rfl
    rw [beValue_cons, ih, hpow, List.length_cons, List.range_succ_eq_map, List.map_cons, List.map_map, List.sum_cons]
    refine congrArg₂ (· + ·) rfl (congrArg List.sum (List.map_congr_left fun i _ => ?_))
    rw [Function.comp_apply, List.getD_cons_succ]
    congr 3
    omega

theorem leadingZeros_zero_cons (bs : List Byte) : leadingZeros (0 :: bs) = leadingZeros bs + 1 := rfl

theorem leadingZeros_cons_of_ne {x : Byte} (hx : x ≠ 0) (bs : List Byte) : leadingZeros (x :: bs) = 0 := by
  rw [leadingZeros, List.takeWhile_cons_of_neg (by simpa using hx), List.length_nil]

/-- A byte that is not 0 ends the leading zero bytes. -/
theorem leadingZeros_le_of_getD_ne {b : List Byte} {i : Nat} (h : b.getD i 0 ≠ 0) : leadingZeros b ≤ i := by
  induction b generalizing i with
  | nil => exact Nat.zero_le i
  | cons x bs ih =>
    by_cases hx : x = 0
    · subst hx
      cases i with
      | zero => exact absurd rfl h
      | succ i => exact Nat.succ_le_succ (ih h)
    · exact leadingZeros_cons_of_ne hx bs ▸ Nat.zero_le i

/-- The first byte that is not 0 bounds the value from below. -/
theorem pow_le_beValue {b : List Byte} (h : leadingZeros b < b.length) :
    256 ^ (b.length - 1 - leadingZeros b) ≤ beValue b := by
  induction b with
  | nil => exact absurd h (Nat.not_lt_zero _)
  | cons x bs ih =>
    rw [beValue_cons, List.length_cons, Nat.add_sub_cancel]
    by_cases hx : x = 0
    · subst hx
      rw [leadingZeros_zero_cons] at h ⊢
      rw [List.length_cons] at h
      calc 256 ^ (bs.length - (leadingZeros bs + 1)) = 256 ^ (bs.length - 1 - leadingZeros bs) := by congr 1; omega
        _ ≤ beValue bs := ih (by omega)
        _ ≤ _ := Nat.le_add_left _ _
    · have hpos : 0 < x.toNat := Nat.pos_of_ne_zero (BitVec.toNat_ne.mp hx)
      rw [leadingZeros_cons_of_ne hx, Nat.sub_zero]
      exact Nat.le_add_right_of_le (Nat.le_mul_of_pos_left _ hpos)

/-! ### The string -/

/-- Digits that add up to their number, read from the left (R152). -/
theorem foldl_reverse_digits (n : Nat) : (Nat.digits 58 n).reverse.foldl (fun n d => n * 58 + d) 0 = n := by
  conv_rhs => rw [← Nat.ofDigits_digits 58 n, Nat.ofDigits_eq_foldr]
  rw [List.foldl_reverse]
  simp only [Nat.mul_comm, Nat.add_comm, Nat.cast_id]

theorem head_reverse_digits_ne_zero (n : Nat) : (Nat.digits 58 n).reverse.head? ≠ some 0 := by
  rw [List.head?_reverse]
  obtain rfl | hn := eq_or_ne n 0
  · simp
  · rw [List.getLast?_eq_some_getLast (Nat.digits_ne_nil_iff_ne_zero.mpr hn)]
    exact fun h => Nat.getLast_digit_ne_zero 58 hn (Option.some.inj h)

@[simp] theorem length_b58 : b58.length = 58 := rfl

/-- Some bytes always make some characters, so the string `1` stands for no bytes alone (R152). -/
theorem base58_eq {b : List Byte} (hb : b ≠ []) :
    base58 b = List.replicate (leadingZeros b) '1' ++ base58Digits (beValue b) := by
  rw [base58]
  refine if_neg fun hnil => ?_
  obtain ⟨hones, hdigits⟩ := List.append_eq_nil_iff.mp hnil
  have hz : leadingZeros b = 0 := by simpa using hones
  have hv : beValue b = 0 := by
    rw [base58Digits_eq, List.map_eq_nil_iff, List.reverse_eq_nil_iff] at hdigits
    exact Nat.digits_eq_nil_iff_eq_zero.mp hdigits
  have hlow := pow_le_beValue (hz ▸ List.length_pos_of_ne_nil hb)
  have hpos : 0 < 256 ^ (b.length - 1 - leadingZeros b) := Nat.pow_pos (by decide)
  omega

theorem length_base58 {b : List Byte} (hb : b ≠ []) :
    (base58 b).length = leadingZeros b + (Nat.digits 58 (beValue b)).length := by
  rw [base58_eq hb, List.length_append, List.length_replicate, length_base58Digits]

/-- Each leading zero byte costs one character and saves at least one, so a bound for the greatest value holds for all. -/
theorem length_base58_le_of_pow_le {b : List Byte} {n m : Nat} (hn : b.length ≤ n) (hnm : n ≤ m) (hm : 1 ≤ m)
    (hpow : 256 ^ n ≤ 58 ^ m) : (base58 b).length ≤ m := by
  obtain rfl | hb := eq_or_ne b []
  · exact hm
  have hz := leadingZeros_le b
  have hvalue : beValue b < 58 ^ (m - leadingZeros b) := by
    refine lt_of_mul_lt_mul_right (a := 256 ^ leadingZeros b) ?_ (Nat.zero_le _)
    calc beValue b * 256 ^ leadingZeros b
        < 256 ^ (b.length - leadingZeros b) * 256 ^ leadingZeros b :=
          Nat.mul_lt_mul_of_pos_right (beValue_lt_of_leadingZeros b) (Nat.pow_pos (by decide))
      _ = 256 ^ b.length := by rw [← pow_add, Nat.sub_add_cancel hz]
      _ ≤ 58 ^ m := (Nat.pow_le_pow_right (by decide) hn).trans hpow
      _ = 58 ^ (m - leadingZeros b) * 58 ^ leadingZeros b := by rw [← pow_add, Nat.sub_add_cancel (by omega)]
      _ ≤ 58 ^ (m - leadingZeros b) * 256 ^ leadingZeros b := Nat.mul_le_mul_left _ (Nat.pow_le_pow_left (by decide) _)
  have hdigits := (Nat.digits_length_le_iff (by decide) _).mpr hvalue
  rw [length_base58 hb]
  omega

/-- The version byte is not 0, so at most six bytes of a patterned UUID are leading zeros (R141). -/
theorem leadingZeros_uuidPattern_le {b : List Byte} (hb : b.length = 16) : leadingZeros (uuidPattern b) ≤ 6 := by
  have hversion : ∀ x : Byte, (x &&& 0x0F) ||| 0x40 ≠ 0 := by decide
  exact leadingZeros_le_of_getD_ne (uuidPattern_getD_six hb ▸ hversion _)

/-- The least length of a short UUID (R155). -/
theorem le_length_base58_uuidPattern {b : List Byte} (hb : b.length = 16) : 19 ≤ (base58 (uuidPattern b)).length := by
  have hz := leadingZeros_uuidPattern_le hb
  have hlen : (uuidPattern b).length = 16 := by rw [length_uuidPattern, hb]
  have hvalue : 58 ^ (18 - leadingZeros (uuidPattern b)) ≤ beValue (uuidPattern b) := by
    refine le_trans ?_ (pow_le_beValue (by omega))
    rw [hlen]
    interval_cases leadingZeros (uuidPattern b)
    all_goals decide
  have hdigits := (Nat.lt_digits_length_iff (by decide) _).mpr hvalue
  rw [length_base58 (List.ne_nil_of_length_pos (by omega))]
  omega

/-! ### What the commands leave -/

theorem exec_suuidGen (s : State) : exec .suuidGen s = .next (committed s (kthState s.rng 16) 0
    (ascii (base58 (uuidPattern (lowBytes s.params.variant s.rng 16))))) := by
  rw [exec, execSuuidGen, drawBytes_eq, complete_setRng]

theorem exec_b58Enc_of_le {len : Nat} (s : State) (h : len ≤ 32) : exec (.b58Enc len) s =
    .next (committed s s.rng 0 (ascii (base58 (inBytes s len)))) := by
  rw [exec, execB58Enc, if_neg (not_lt.mpr h), complete_eq_committed]

end Sys2Proof.Machine

open Sys2Proof Sys2Proof.Machine

/-- Settles O35: the digits of the value, most significant first. -/
theorem base58WritesTheBigEndianValue : Obligations.Base58WritesTheBigEndianValue := by
  intro b
  have hlt : ∀ d ∈ (Nat.digits 58 (beValue b)).reverse, d < 58 := fun d hd =>
    Nat.digits_lt_base (by decide) (List.mem_reverse.mp hd)
  refine ⟨(Nat.digits 58 (beValue b)).reverse, hlt, head_reverse_digits_ne_zero _, ?_, ?_⟩
  · rw [foldl_reverse_digits, beValue_eq_sum]
  · split_ifs with hb
    · rw [hb]
      rfl
    · rw [base58_eq hb, base58Digits_eq, List.map_congr_left fun d hd => charAt_eq_getD '?' (length_b58 ▸ hlt d hd)]
      rfl

/-- Settles O36: 16 bytes stay below `58 ^ 22`, and the version byte keeps them above the least length. -/
theorem shortUuidHas19To22Characters : Obligations.ShortUuidHas19To22Characters := by
  refine ⟨fun b hb => ⟨le_length_base58_uuidPattern hb, ?_⟩, ?_, ?_⟩
  · exact length_base58_le_of_pow_le (n := 16) (length_uuidPattern b ▸ hb.le) (by decide) (by decide) (by decide)
  · decide +kernel
  · decide +kernel

/-- Settles O37. -/
theorem base58CommandsEncodeTheirBytes : Obligations.Base58CommandsEncodeTheirBytes := by
  refine fun s => ⟨exec_suuidGen s, fun len hlen => ⟨exec_b58Enc_of_le s hlen, ?_⟩⟩
  exact length_base58_le_of_pow_le (n := 32) (by simpa using hlen) (by decide) (by decide) (by decide)
end

section
/-! PROOFS of the family `42_encoders`: nanoid symbols, each by a value sampled (spec/42_encoders.md R156, R157). -/

namespace Sys2Proof.Machine

@[simp] theorem length_nano : nano.length = 64 := rfl

/-- An operation applied to each result of a drawing one. -/
theorem repeatDraw_map {α β : Type} (f : Word → α × Word) (g : α → β) (n : Nat) (u : Word) :
    repeatDraw (fun w => (g (f w).1, (f w).2)) n u = ((repeatDraw f n u).1.map g, (repeatDraw f n u).2) := by
  induction n generalizing u with
  | zero => rfl
  | succ n ih => simp only [repeatDraw, ih, List.map_cons]

theorem ascii_getD {cs : List Char} {k : Nat} (h : k < cs.length) :
    (ascii cs).getD k 0 = BitVec.ofNat 8 (charAt cs k).toNat := by
  rw [charAt, List.getD_eq_getElem _ _ h, List.getD_eq_getElem _ _ (by rwa [length_ascii])]
  exact List.getElem_map _

/-- A symbol of the default alphabet takes the low 6 bits of one draw (R122, R157). -/
theorem drawSymbol_nano (v : MixerVariant) (u : Word) : drawSymbol v (ascii nano) u =
    (BitVec.ofNat 8 (charAt nano ((kthDraw v u 1).toNat % 64)).toNat, kthState u 1) := by
  have hsample := sampleInt_of_limit v 0 63 u (n := 64) (by decide) (by decide) (limitOf_two_pow (e := 6) (by decide))
  have hhi : ((ascii nano).length : Int) - 1 = 63 := by rw [length_ascii, length_nano]; rfl
  rw [drawSymbol, hhi, hsample, Int.zero_add, Int.toNat_natCast,
    ascii_getD (length_nano ▸ Nat.mod_lt _ (by decide))]

theorem drawSymbols_nano (v : MixerVariant) (n : Nat) (u : Word) : drawSymbols v (ascii nano) n u =
    ((List.range n).map fun i => BitVec.ofNat 8 (charAt nano ((kthDraw v u (i + 1)).toNat % 64)).toNat, kthState u n) := by
  have h := repeatDraw_one_draw_each (drawSymbol v (ascii nano)) _ (drawSymbol_nano v) n u
  simpa only [kthDraw_kthState, drawSymbols] using h

/-- Values sampled one after another. -/
theorem sampledSeq_repeatDraw (v : MixerVariant) (lo hi : Int) (n : Nat) (u : Word) :
    SampledSeq v lo hi u (repeatDraw (sampleInt v lo hi) n u).1 (repeatDraw (sampleInt v lo hi) n u).2 := by
  induction n generalizing u with
  | zero => rfl
  | succ n ih => exact ⟨_, sampledFrom_sampleInt v lo hi u, ih _⟩

theorem SampledSeq.mem_range {v : MixerVariant} {lo hi : Int} (hle : lo ≤ hi) {u u' : Word} {rs : List Int}
    (h : SampledSeq v lo hi u rs u') : ∀ r ∈ rs, lo ≤ r ∧ r ≤ hi := by
  induction rs generalizing u with
  | nil => simp
  | cons r rs ih =>
    obtain ⟨u1, hr, hrs⟩ := h
    exact List.forall_mem_cons.mpr ⟨hr.mem_range hle, ih hrs⟩

/-- Symbols of any alphabet, by the values sampled for them (R157). -/
theorem drawSymbols_eq (v : MixerVariant) (alpha : List Byte) (n : Nat) (u : Word) : drawSymbols v alpha n u =
    ((repeatDraw (sampleInt v 0 (alpha.length - 1)) n u).1.map fun k => alpha.getD k.toNat 0,
      (repeatDraw (sampleInt v 0 (alpha.length - 1)) n u).2) :=
  repeatDraw_map (sampleInt v 0 (alpha.length - 1)) (fun k => alpha.getD k.toNat 0) n u

/-! ### What the commands leave -/

theorem nanoidLen_le {len : Nat} (h : len ≤ 64) : nanoidLen len ≤ 64 := by
  rw [nanoidLen]
  split_ifs
  all_goals omega

theorem exec_nanoid_of_le {len : Nat} (s : State) (h : len ≤ 64) : exec (.nanoid len) s =
    .next (committed s (drawSymbols s.params.variant (ascii nano) (nanoidLen len) s.rng).2 0
      (drawSymbols s.params.variant (ascii nano) (nanoidLen len) s.rng).1) := by
  simp only [exec, execNanoid, if_neg (not_lt.mpr (nanoidLen_le h)), complete_setRng]

theorem exec_nanoidCa_of_le {len alen : Nat} (s : State) (h : len ≤ 64) (hpos : 1 ≤ alen) (halen : alen ≤ 64) :
    exec (.nanoidCa len alen) s =
    .next (committed s (drawSymbols s.params.variant (inBytes s alen) (nanoidLen len) s.rng).2 0
      (drawSymbols s.params.variant (inBytes s alen) (nanoidLen len) s.rng).1) := by
  have hin : ¬ (alen = 0 ∨ 64 < alen) := by omega
  simp only [exec, execNanoidCa, if_neg (not_lt.mpr (nanoidLen_le h)), if_neg hin, complete_setRng]

end Sys2Proof.Machine

open Sys2Proof Sys2Proof.Machine

/-- Settles O38: the span 64 accepts every draw. -/
theorem nanoidUsesLowSixBitsOfEachDraw : Obligations.NanoidUsesLowSixBitsOfEachDraw := by
  intro s len hlen
  have hsymbol : ∀ x : Nat, charAt nano (x % 64) =
      "ABCDEFGHIJKLMNOPQRSTUVWXYZabcdefghijklmnopqrstuvwxyz0123456789-_".toList.getD (x % 64) '?' :=
    fun x => charAt_eq_getD '?' (Nat.mod_lt _ (by decide))
  rw [exec_nanoid_of_le s hlen, drawSymbols_nano]
  simp only [hsymbol]
  rfl

/-- Settles O39: the values the model samples are the sequence. -/
theorem nanoidCustomSamplesItsAlphabet : Obligations.NanoidCustomSamplesItsAlphabet := by
  intro s len alen hlen hpos halen
  have hseq := sampledSeq_repeatDraw s.params.variant 0 ((alen : Int) - 1) (nanoidLen len) s.rng
  have hrange := hseq.mem_range (by omega)
  refine ⟨_, _, length_repeatDraw _ _ _, fun k hk => ?_, hseq, ?_⟩
  · have := hrange k hk
    omega
  · have hsymbol : ∀ k, 0 ≤ k ∧ k ≤ (alen : Int) - 1 → (inBytes s alen).getD k.toNat 0 = bufByte s.inp k.toNat :=
      fun k hk => bufTake_getD s.inp (by omega)
    rw [exec_nanoidCa_of_le s hlen hpos halen, drawSymbols_eq, length_inBytes,
      List.map_congr_left fun k hk => hsymbol k (hrange k hk)]
    rfl
end

section
/-! PROOFS of the family `43_checksums`: what each of the four checksum commands leaves, said once for a number of digits and
a check digit formula (spec/43_checksums.md R182 to R187, spec/60_exceptions.md R204). -/

namespace Sys2Proof.Machine

/-! ### The commands that check host digits -/

/-- What a command that checks `n` host digits answers (R184, R185). -/
def checkAnswer (check : List Nat → Nat) (n : Nat) (s : State) : Result :=
  if allDigits (inDigits s n) then
    .next (committed s s.rng (BitVec.ofNat 64 (check (inDigits s n))) (codeBytes (inDigits s n) (check (inDigits s n))))
  else .next (failed s 4)

theorem exec_upcChk (s : State) : exec .upcChk s = checkAnswer upcCheck 11 s := by
  rw [exec, execUpcChk, completeCode, complete_eq_committed, fail_eq_failed]
  rfl

theorem exec_eanChk (s : State) : exec .eanChk s = checkAnswer eanCheck 12 s := by
  rw [exec, execEanChk, completeCode, complete_eq_committed, fail_eq_failed]
  rfl

theorem inDigits_eq (s : State) (n : Nat) : inDigits s n = (List.range n).map fun i => (bufByte s.inp i).toNat := by
  rw [inDigits, inBytes, bufTake, List.map_map]
  rfl

theorem allDigits_iff {ds : List Nat} : allDigits ds = true ↔ ∀ d ∈ ds, d ≤ 9 := by simp [allDigits]

theorem allDigits_inDigits_iff (s : State) (n : Nat) :
    allDigits (inDigits s n) = true ↔ ∀ i < n, (bufByte s.inp i).toNat ≤ 9 := by
  simp [allDigits_iff, inDigits_eq]

/-- A success clears `ERR` (R78), a failure sets it (R206). -/
theorem committed_ne_failed (s : State) (u : Word) (r : DWord) (b : List Byte) (c : Byte) :
    committed s u r b ≠ failed s c :=
  fun h => Bool.noConfusion (congrArg (fun t => t.status.err) h : false = true)

section
variable (check : List Nat → Nat) {n : Nat} {s : State}

theorem checkAnswer_of_digits (h : ∀ i < n, (bufByte s.inp i).toNat ≤ 9) : checkAnswer check n s =
    .next (committed s s.rng (BitVec.ofNat 64 (check (inDigits s n))) (codeBytes (inDigits s n) (check (inDigits s n)))) :=
  if_pos ((allDigits_inDigits_iff s n).mpr h)

theorem checkAnswer_of_bad (h : ∃ i < n, 9 < (bufByte s.inp i).toNat) : checkAnswer check n s = .next (failed s 4) := by
  refine if_neg fun hall => ?_
  obtain ⟨i, hi, hbad⟩ := h
  exact absurd ((allDigits_inDigits_iff s n).mp hall i hi) (not_le.mpr hbad)

/-- A bad digit is the only way to fail (R182, R204). -/
theorem checkAnswer_eq_failed_iff :
    checkAnswer check n s = .next (failed s 4) ↔ ∃ i < n, 10 ≤ (bufByte s.inp i).toNat := by
  refine ⟨fun h => ?_, checkAnswer_of_bad check⟩
  by_contra hgood
  have hdigits : ∀ i < n, (bufByte s.inp i).toNat ≤ 9 := fun i hi =>
    Nat.le_of_lt_succ (not_le.mp fun hbad => hgood ⟨i, hi, hbad⟩)
  rw [checkAnswer_of_digits check hdigits] at h
  exact committed_ne_failed _ _ _ _ _ (Host.Outcome.next.inj h)

end

/-! ### The commands that draw their digits -/

/-- `n` drawn digits (R186, R187). -/
def drawDigits (v : MixerVariant) (n : Nat) (u : Word) : List Nat × Word := repeatDraw (drawDigit v) n u

@[simp] theorem length_drawDigits (v : MixerVariant) (n : Nat) (u : Word) : (drawDigits v n u).1.length = n :=
  length_repeatDraw _ _ _

/-- What a command that draws `n` digits answers (R186, R187). -/
def genAnswer (check : List Nat → Nat) (n : Nat) (s : State) : Result :=
  .next (committed s (drawDigits s.params.variant n s.rng).2
    (BitVec.ofNat 64 (check (drawDigits s.params.variant n s.rng).1))
    (codeBytes (drawDigits s.params.variant n s.rng).1 (check (drawDigits s.params.variant n s.rng).1)))

theorem exec_upcGen (s : State) : exec .upcGen s = genAnswer upcCheck 11 s := by
  simp only [exec, execUpcGen, completeCode, complete_setRng]
  rfl

theorem exec_eanGen (s : State) : exec .eanGen s = genAnswer eanCheck 12 s := by
  simp only [exec, execEanGen, completeCode, complete_setRng]
  rfl

/-- Drawn digits are the values sampled, as numbers. -/
theorem drawDigits_eq (v : MixerVariant) (n : Nat) (u : Word) : drawDigits v n u =
    ((repeatDraw (sampleInt v 0 9) n u).1.map Int.toNat, (repeatDraw (sampleInt v 0 9) n u).2) :=
  repeatDraw_map (sampleInt v 0 9) Int.toNat n u

theorem drawDigits_le (v : MixerVariant) (n : Nat) (u : Word) : ∀ d ∈ (drawDigits v n u).1, d ≤ 9 := by
  have hrange := (sampledSeq_repeatDraw v 0 9 n u).mem_range (by decide)
  rw [drawDigits_eq]
  intro d hd
  obtain ⟨r, hr, rfl⟩ := List.mem_map.mp hd
  have := hrange r hr
  omega

/-- The values sampled are not negative, so the digits drawn are these values. -/
theorem sampledSeq_drawDigits (v : MixerVariant) (n : Nat) (u : Word) :
    SampledSeq v 0 9 u ((drawDigits v n u).1.map Int.ofNat) (drawDigits v n u).2 := by
  have hseq := sampledSeq_repeatDraw v 0 9 n u
  have hcast : ∀ r ∈ (repeatDraw (sampleInt v 0 9) n u).1, Int.ofNat r.toNat = r := fun r hr =>
    Int.toNat_of_nonneg (hseq.mem_range (by decide) r hr).left
  rw [drawDigits_eq, List.map_map, List.map_congr_left (f := Int.ofNat ∘ Int.toNat) (g := id) hcast, List.map_id]
  exact hseq

theorem genAnswer_no_error (check : List Nat → Nat) (n : Nat) (s : State) :
    ∃ t, genAnswer check n s = .next t ∧ t.status.err = false := ⟨_, rfl, rfl⟩

end Sys2Proof.Machine

open Sys2Proof Sys2Proof.Machine

/-- Settles O43. -/
theorem checksumCommandsCheckHostDigits : Obligations.ChecksumCommandsCheckHostDigits := by
  refine ⟨by decide, by decide, fun s => ?_⟩
  simp only [exec_upcChk, exec_eanChk, ← inDigits_eq]
  exact ⟨checkAnswer_of_digits upcCheck, checkAnswer_of_bad upcCheck, checkAnswer_of_digits eanCheck,
    checkAnswer_of_bad eanCheck⟩

/-- Settles O44. -/
theorem badDigitsFail : Obligations.BadDigitsFail := by
  intro s
  rw [exec_upcChk, exec_eanChk, exec_upcGen, exec_eanGen]
  exact ⟨checkAnswer_eq_failed_iff upcCheck, checkAnswer_eq_failed_iff eanCheck, genAnswer_no_error upcCheck 11 s,
    genAnswer_no_error eanCheck 12 s⟩

/-- Settles O45: the digits drawn are the sequence. -/
theorem checksumGeneratorsSampleTheirDigits : Obligations.ChecksumGeneratorsSampleTheirDigits :=
  ⟨by decide, by decide, fun s =>
    ⟨⟨_, _, length_drawDigits _ 11 _, drawDigits_le _ _ _, sampledSeq_drawDigits _ _ _, exec_upcGen s⟩,
      ⟨_, _, length_drawDigits _ 12 _, drawDigits_le _ _ _, sampledSeq_drawDigits _ _ _, exec_eanGen s⟩⟩⟩
end

section
/-! PROOFS of the family `43_checksums`: the check digit formulas, and why a full code passes its checksum
(spec/43_checksums.md R180, R181, R183, R188). -/

namespace Sys2Proof.Machine

/-! ### The check digit makes the weighted sum a multiple of ten -/

/-- A digit put last joins the odd positions after an even number of digits. -/
theorem sum_oddPlaces_append (c : Nat) : ∀ ds : List Nat,
    (oddPlaces (ds ++ [c])).sum = (oddPlaces ds).sum + if ds.length % 2 = 0 then c else 0
  | [] => by simp [oddPlaces]
  | [d] => by simp [oddPlaces]
  | d :: e :: ds => by simp [oddPlaces, sum_oddPlaces_append c ds, Nat.add_assoc]

/-- A digit put last joins the even positions after an odd number of digits. -/
theorem sum_evenPlaces_append (c : Nat) (ds : List Nat) :
    (evenPlaces (ds ++ [c])).sum = (evenPlaces ds).sum + if ds.length % 2 = 1 then c else 0 := by
  cases ds with
  | nil => rfl
  | cons d ds =>
    have hparity : ds.length % 2 = 0 ↔ (d :: ds).length % 2 = 1 := by rw [List.length_cons]; omega
    simpa only [hparity, evenPlaces, List.cons_append, List.tail_cons] using sum_oddPlaces_append c ds

theorem upcCheck_le (ds : List Nat) : upcCheck ds ≤ 9 := Nat.le_of_lt_succ (Nat.mod_lt _ (by decide))

theorem eanCheck_le (ds : List Nat) : eanCheck ds ≤ 9 := Nat.le_of_lt_succ (Nat.mod_lt _ (by decide))

/-- A UPC-A code has its check digit at an even position, of weight 1. -/
theorem upcChecksum_append_upcCheck {ds : List Nat} (h : ds.length % 2 = 1) :
    (3 * (oddPlaces (ds ++ [upcCheck ds])).sum + (evenPlaces (ds ++ [upcCheck ds])).sum) % 10 = 0 := by
  rw [sum_oddPlaces_append, sum_evenPlaces_append, if_neg (by omega), if_pos h, upcCheck]
  omega

/-- An EAN-13 code has its check digit at an odd position, of weight 1. -/
theorem eanChecksum_append_eanCheck {ds : List Nat} (h : ds.length % 2 = 0) :
    ((oddPlaces (ds ++ [eanCheck ds])).sum + 3 * (evenPlaces (ds ++ [eanCheck ds])).sum) % 10 = 0 := by
  rw [sum_oddPlaces_append, sum_evenPlaces_append, if_pos h, if_neg (by omega), eanCheck]
  omega

/-! ### The code that `OUT` shows -/

/-- `OUT` holds `n` digits and their check digit, as `Code` writes them (R183). -/
def ShowsCode (check : List Nat → Nat) (n : Nat) (t : State) : Prop :=
  ∃ ds : List Nat, ds.length = n ∧ (∀ d ∈ ds, d ≤ 9) ∧ t.outlen = BitVec.ofNat 8 (n + 1) ∧
    t.out = bufOfBytes (codeBytes ds (check ds))

theorem showsCode_committed (check : List Nat → Nat) (s : State) (u : Word) (r : DWord) {ds : List Nat}
    (hds : ∀ d ∈ ds, d ≤ 9) : ShowsCode check ds.length (committed s u r (codeBytes ds (check ds))) :=
  ⟨ds, rfl, hds, by rw [committed, length_codeBytes], rfl⟩

theorem checkAnswer_showsCode (check : List Nat → Nat) (n : Nat) (s : State) :
    ∃ t, checkAnswer check n s = .next t ∧ (t.status.err = false → ShowsCode check n t) := by
  rw [checkAnswer]
  split_ifs with hall
  · exact ⟨_, rfl, fun _ => by simpa using showsCode_committed check s s.rng _ (allDigits_iff.mp hall)⟩
  · exact ⟨_, rfl, fun herr => nomatch herr⟩

theorem genAnswer_showsCode (check : List Nat → Nat) (n : Nat) (s : State) :
    ∃ t, genAnswer check n s = .next t ∧ (t.status.err = false → ShowsCode check n t) :=
  ⟨_, rfl, fun _ => by simpa using showsCode_committed check s _ _ (drawDigits_le s.params.variant n s.rng)⟩

/-- The byte at a place of a code is its digit in ASCII. -/
theorem toNat_bufByte_codeBytes {ds : List Nat} {c k : Nat} (hd : ∀ d ∈ ds ++ [c], d ≤ 9) (hk : k < (ds ++ [c]).length)
    (hlen : (ds ++ [c]).length ≤ 64) : (bufByte (bufOfBytes (codeBytes ds c)) k).toNat = 0x30 + (ds ++ [c])[k] := by
  have hdigit := hd _ (List.getElem_mem hk)
  rw [bufByte_bufOfBytes _ (by omega), codeBytes, List.getD_eq_getElem _ _ (by rwa [List.length_map]), List.getElem_map,
    BitVec.toNat_ofNat, Nat.mod_eq_of_lt (by omega)]

theorem ShowsCode.outlen {check : List Nat → Nat} {n : Nat} {t : State} (h : ShowsCode check n t) :
    t.outlen = BitVec.ofNat 8 (n + 1) := by
  obtain ⟨-, -, -, hlen, -⟩ := h
  exact hlen

section
variable {check : List Nat → Nat} (hcheck : ∀ ds, check ds ≤ 9) {n : Nat} (hn : n < 64) {t : State}
include hcheck hn

/-- Every byte of the code in `OUT` is its digit in ASCII, and the digits are at most 9. -/
theorem ShowsCode.exists_bytes (h : ShowsCode check n t) : ∃ ds : List Nat, ds.length = n ∧
    ∀ k (hk : k < (ds ++ [check ds]).length),
      (bufByte t.out k).toNat = 0x30 + (ds ++ [check ds])[k] ∧ (ds ++ [check ds])[k] ≤ 9 := by
  obtain ⟨ds, hlen, hds, -, hout⟩ := h
  have hle : ∀ d ∈ ds ++ [check ds], d ≤ 9 := List.forall_mem_append.mpr ⟨hds, by simpa using hcheck ds⟩
  refine ⟨ds, hlen, fun k hk => ⟨?_, hle _ (List.getElem_mem hk)⟩⟩
  rw [hout]
  exact toNat_bufByte_codeBytes hle hk (by rw [List.length_append, hlen]; exact hn)

theorem ShowsCode.ascii (h : ShowsCode check n t) :
    ∀ k < n + 1, 0x30 ≤ (bufByte t.out k).toNat ∧ (bufByte t.out k).toNat ≤ 0x39 := by
  obtain ⟨ds, hlen, hbyte⟩ := h.exists_bytes hcheck hn
  intro k hk
  obtain ⟨hdigit, hle⟩ := hbyte k (by rwa [List.length_append, hlen])
  omega

/-- The digits read back from `OUT` are those of the code. -/
theorem ShowsCode.exists_digits (h : ShowsCode check n t) :
    ∃ ds : List Nat, ds.length = n ∧ (List.range (n + 1)).map (codeDigit t) = ds ++ [check ds] := by
  obtain ⟨ds, hlen, hbyte⟩ := h.exists_bytes hcheck hn
  refine ⟨ds, hlen, List.ext_getElem (by simp [hlen]) fun k _ hk => ?_⟩
  rw [List.getElem_map, List.getElem_range, codeDigit, (hbyte k hk).left, Nat.add_sub_cancel_left]

end

theorem ShowsCode.upc_sum {t : State} (h : ShowsCode upcCheck 11 t) :
    (3 * (codeDigit t 0 + codeDigit t 2 + codeDigit t 4 + codeDigit t 6 + codeDigit t 8 + codeDigit t 10) +
      (codeDigit t 1 + codeDigit t 3 + codeDigit t 5 + codeDigit t 7 + codeDigit t 9 + codeDigit t 11)) % 10 = 0 := by
  obtain ⟨ds, hlen, hcode⟩ := h.exists_digits upcCheck_le (by decide)
  have hsum := upcChecksum_append_upcCheck (ds := ds) (by omega)
  simpa [← hcode, List.range_succ, oddPlaces, evenPlaces, Nat.add_assoc] using hsum

theorem ShowsCode.ean_sum {t : State} (h : ShowsCode eanCheck 12 t) :
    ((codeDigit t 0 + codeDigit t 2 + codeDigit t 4 + codeDigit t 6 + codeDigit t 8 + codeDigit t 10 + codeDigit t 12) +
      3 * (codeDigit t 1 + codeDigit t 3 + codeDigit t 5 + codeDigit t 7 + codeDigit t 9 + codeDigit t 11)) % 10 = 0 := by
  obtain ⟨ds, hlen, hcode⟩ := h.exists_digits eanCheck_le (by decide)
  have hsum := eanChecksum_append_eanCheck (ds := ds) (by omega)
  simpa [← hcode, List.range_succ, oddPlaces, evenPlaces, Nat.add_assoc] using hsum

theorem exec_upc_showsCode {i : Instr} (hi : i = .upcChk ∨ i = .upcGen) (s : State) :
    ∃ t, exec i s = .next t ∧ (t.status.err = false → ShowsCode upcCheck 11 t) := by
  obtain rfl | rfl := hi
  · exact exec_upcChk s ▸ checkAnswer_showsCode upcCheck 11 s
  · exact exec_upcGen s ▸ genAnswer_showsCode upcCheck 11 s

theorem exec_ean_showsCode {i : Instr} (hi : i = .eanChk ∨ i = .eanGen) (s : State) :
    ∃ t, exec i s = .next t ∧ (t.status.err = false → ShowsCode eanCheck 12 t) := by
  obtain rfl | rfl := hi
  · exact exec_eanChk s ▸ checkAnswer_showsCode eanCheck 12 s
  · exact exec_eanGen s ▸ genAnswer_showsCode eanCheck 12 s

end Sys2Proof.Machine

open Sys2Proof Sys2Proof.Machine

/-- Settles O42. -/
theorem checkDigitFormulas : Obligations.CheckDigitFormulas := by
  intro d1 d2 d3 d4 d5 d6 d7 d8 d9 d10 d11 d12
  constructor
  · simp [upcCheck, oddPlaces, evenPlaces, Nat.add_assoc]
  · simp [eanCheck, oddPlaces, evenPlaces, Nat.add_assoc]

/-- Settles O46: a command that does not fail shows a code, and the check digit makes its sum a multiple of ten. -/
theorem fullCodesPassTheirChecksum : Obligations.FullCodesPassTheirChecksum := by
  intro i s hi
  by_cases hupc : i = .upcChk ∨ i = .upcGen
  · obtain ⟨t, ht, hcode⟩ := exec_upc_showsCode hupc s
    refine ⟨t, ht, fun herr => ?_⟩
    have h := hcode herr
    rw [if_pos hupc]
    exact ⟨h.outlen, h.ascii upcCheck_le (by decide), h.upc_sum⟩
  · have hean : i = .eanChk ∨ i = .eanGen := by tauto
    obtain ⟨t, ht, hcode⟩ := exec_ean_showsCode hean s
    refine ⟨t, ht, fun herr => ?_⟩
    have h := hcode herr
    rw [if_neg hupc]
    exact ⟨h.outlen, h.ascii eanCheck_le (by decide), h.ean_sum⟩
end

section
/-! PROOFS of the family `60_exceptions`: which checks of a command fail (spec/60_exceptions.md R201, R203), and what a
failure and a success leave in `STATUS` (R206, R207, R209). -/

namespace Sys2Proof.Machine

/-! ### The checks of a command -/

/-- A command that fails under a condition, and else commits a result, fails under that condition alone. -/
theorem eq_failed_iff {p : Prop} {s : State} {r : Result} {c : Byte} (hfail : p → r = .next (failed s c))
    (hok : ¬ p → ∃ u res b, r = .next (committed s u res b)) : r = .next (failed s c) ↔ p := by
  refine ⟨fun hr => ?_, hfail⟩
  by_contra hp
  obtain ⟨u, res, b, hc⟩ := hok hp
  exact committed_ne_failed s u res b c (Host.Outcome.next.inj (hc.symm.trans hr))

/-- The default length 21 is in range, so the effective length is too great only if `LEN` is (R157). -/
theorem lt_nanoidLen_iff {len : Nat} : 64 < nanoidLen len ↔ 64 < len := by
  rw [nanoidLen]
  split_ifs
  all_goals omega

theorem exec_b58Enc_of_lt {len : Nat} (s : State) (h : 32 < len) : exec (.b58Enc len) s = .next (failed s 3) := by
  rw [exec, execB58Enc, if_pos h, fail_eq_failed]
  rfl

theorem exec_nanoid_of_lt {len : Nat} (s : State) (h : 64 < nanoidLen len) :
    exec (.nanoid len) s = .next (failed s 3) := by
  rw [exec, execNanoid, if_pos h, fail_eq_failed]
  rfl

/-- Both checks of NANOID.CA give the same code (R203, R205). -/
theorem exec_nanoidCa_of_bad {len alen : Nat} (s : State) (h : 64 < nanoidLen len ∨ alen = 0 ∨ 64 < alen) :
    exec (.nanoidCa len alen) s = .next (failed s 3) := by
  rw [exec, execNanoidCa, fail_eq_failed]
  split_ifs with hlen halen
  · rfl
  · rfl
  · exact absurd h (not_or.mpr ⟨hlen, halen⟩)

/-! ### What a command leaves in `STATUS` -/

/-- A command fails and writes nothing else, or clears `ERR` and `CODE` and leaves the rest of `STATUS` (R78, R206). -/
theorem Answers.fail_or_succeed {s t : State} (h : Answers s (.next t)) :
    (∃ c, t = fail s c) ∨ t.status = s.status.succeed := by
  cases h with
  | seeded => exact .inr rfl
  | failed c => exact .inl ⟨c, rfl⟩
  | committed => exact .inr rfl

/-- No command clears `EVERERR` (R207). -/
theorem Answers.everErr {s t : State} (h : Answers s (.next t)) (hs : s.status.everErr = true) :
    t.status.everErr = true := by
  obtain ⟨c, rfl⟩ | hok := h.fail_or_succeed
  · rfl
  · rwa [hok, Status.succeed_everErr]

/-- A step that is not reset does not clear `EVERERR` (R207). -/
theorem StepTo.everErr {s t : State} (hst : StepTo s t) (hs : s.status.everErr = true)
    (hr : s.pending.head? ≠ some .reset) : t.status.everErr = true := by
  cases hst with
  | quiet hb =>
    obtain ⟨-, -, -, -, -, -, -, -, hstatus, -⟩ := hb
    rwa [hstatus]
  | reset rest hp hb => exact absurd (by rw [hp]; rfl) hr
  | store host o v rest h0 => rwa [memStore_status]
  | command host w rest hp hx => exact (answers_of_execute hx).everErr hs

end Sys2Proof.Machine

open Sys2Proof Sys2Proof.Machine

/-- Settles O23: over a range that is not inverted both commands commit a result. -/
theorem invertedRangeFails : Obligations.InvertedRangeFails := fun _ =>
  ⟨eq_failed_iff exec_intIncl_of_lt fun h => ⟨_, _, _, exec_intIncl_of_le (not_lt.mp h)⟩,
    eq_failed_iff exec_intBig_of_lt fun h => ⟨_, _, _, exec_intBig_of_le (not_lt.mp h)⟩⟩

/-- Settles O26: lengths in range commit a result. -/
theorem lengthsOutOfRangeFail : Obligations.LengthsOutOfRangeFail := by
  intro s len alen
  refine ⟨eq_failed_iff (exec_drawBytes_of_lt s) fun h => ⟨_, _, _, exec_drawBytes_of_le s (not_lt.mp h)⟩,
    eq_failed_iff (exec_b58Enc_of_lt s) fun h => ⟨_, _, _, exec_b58Enc_of_le s (not_lt.mp h)⟩,
    eq_failed_iff (exec_nanoid_of_lt s) fun h => ⟨_, _, _, exec_nanoid_of_le s ?_⟩,
    eq_failed_iff (exec_nanoidCa_of_bad s) fun h => ?_⟩
  · exact not_lt.mp (mt lt_nanoidLen_iff.mpr h)
  · obtain ⟨hlen, halen⟩ := not_or.mp h
    exact ⟨_, _, _, exec_nanoidCa_of_le s (not_lt.mp (mt lt_nanoidLen_iff.mpr hlen)) (by omega) (by omega)⟩

/-- Settles O55: of the four things a step can do to the registers, only reset clears `EVERERR`. -/
theorem everErrIsSticky : Obligations.EverErrIsSticky :=
  ⟨fun _ _ => rfl, fun _ _ _ => ⟨rfl, rfl, rfl, rfl, rfl, rfl⟩,
    fun _ _ hs hstep hr => (stepTo_of_step hstep).everErr hs hr⟩

/-- Settles O56: every command has an answer, and its `STATUS` is that of a failure or of a success. -/
theorem commandsEndAndFailuresArePrecise : Obligations.CommandsEndAndFailuresArePrecise := by
  refine ⟨fail_eq_failed, fun i s => ?_⟩
  have ha := exec_answers i s
  obtain ⟨t, ht, hsame⟩ := ha.exists_next
  rw [ht] at ha
  refine ⟨t, ht, hsame, ?_⟩
  obtain ⟨c, rfl⟩ | hok := ha.fail_or_succeed
  · obtain ⟨hpos, hle⟩ := c.bits_range
    exact ⟨rfl, .inl ⟨c.bits, hpos, hle, fail_eq_failed s c⟩⟩
  · rw [hok]
    exact ⟨rfl, .inr ⟨rfl, rfl, rfl⟩⟩
end

section
/-! PROOFS of the family `60_exceptions`: a step is refused exactly on the host behaviours without an outcome
(spec/60_exceptions.md R211). -/

namespace Sys2Proof.Machine

/-- The next host event is an access without an outcome (R211). -/
def NextViolates (s : State) : Prop := ∃ h a rest, s.pending = .access h a :: rest ∧ Violates s h a

/-- Only the next event counts. -/
theorem nextViolates_iff {s : State} {h : Nat} {a : Access} {rest : List HostEvent}
    (hp : s.pending = .access h a :: rest) : NextViolates s ↔ Violates s h a := by
  refine ⟨fun ⟨h', a', rest', hp', hv⟩ => ?_, fun hv => ⟨h, a, rest, hp, hv⟩⟩
  rw [hp] at hp'
  cases hp'
  exact hv

/-- An access that misses the window is left to the platform (R51). -/
theorem not_violates_of_outside {s : State} {h : Nat} {a : Access} (ha : a.reachesWindow = false) :
    ¬ Violates s h a := by
  rintro ⟨hreach, -⟩
  exact Bool.false_ne_true (ha.symm.trans (reachesWindow_eq_true.mpr hreach))

/-- A step is refused on a violation, and has a next state otherwise. -/
theorem StepAnswers.refused_or_next {s : State} {r : Result} (hr : StepAnswers s r) :
    (NextViolates s ∧ ∃ x, r = .refused x) ∨ (¬ NextViolates s ∧ ∃ t, r = .next t) := by
  cases hr with
  | idle hp => exact .inr ⟨by simp [NextViolates, hp], _, rfl⟩
  | release h rest hp => exact .inr ⟨by simp [NextViolates, hp], _, rfl⟩
  | reset rest hp => exact .inr ⟨by simp [NextViolates, hp], _, rfl⟩
  | outside h a rest hp ha =>
    obtain ⟨t, ht, -⟩ := platformAccess_sameBlock a { s with pending := rest }
    exact .inr ⟨mt (nextViolates_iff hp).mp (not_violates_of_outside ha), t, ht⟩
  | refused h a rest x hp hv => exact .inl ⟨(nextViolates_iff hp).mpr hv, x, rfl⟩
  | read h o rest hp hv => exact .inr ⟨mt (nextViolates_iff hp).mp hv, _, rfl⟩
  | store h o v rest hp hv => exact .inr ⟨mt (nextViolates_iff hp).mp hv, _, rfl⟩
  | ignored h o v rest hp hv => exact .inr ⟨mt (nextViolates_iff hp).mp hv, _, rfl⟩
  | command h v rest hp hv =>
    obtain ⟨t, ht, -⟩ := (execute_answers v { afterWrite s h rest with cmd := v }).exists_next
    exact .inr ⟨mt (nextViolates_iff hp).mp hv, t, ht⟩

end Sys2Proof.Machine

open Sys2Proof Sys2Proof.Machine

/-- Settles O50: a command always answers, so the refusals of an access are the only ones. -/
theorem onlyProtocolViolationsAreRefused : Obligations.OnlyProtocolViolationsAreRefused := by
  intro s
  obtain ⟨hv, x, hx⟩ | ⟨hv, t, ht⟩ := (step_answers s).refused_or_next
  · exact ⟨iff_of_true ⟨x, hx⟩ hv, fun f => nomatch f⟩
  · refine ⟨iff_of_false (fun ⟨x, hx⟩ => ?_) hv, fun f => nomatch f⟩
    rw [ht] at hx
    cases hx
end

section
/-! PROOFS of the family `70_reset_and_hazards`: the number of draws each command makes (spec/70_reset_and_hazards.md R238). -/

namespace Sys2Proof.Machine

/-! ### Symbols over a power of two -/

/-- The span of the indices of `n` symbols is `n` (R120, R157). -/
theorem spanOf_indices {n : Nat} (hn : n < 2 ^ 32) : spanOf 0 ((n : Int) - 1) = n := by
  rw [spanOf]
  omega

/-- A symbol of an alphabet whose length is a power of two takes one draw (R122, R157). -/
theorem drawSymbol_two_pow (v : MixerVariant) {alpha : List Byte} {e : Nat} (he : e < 32) (hlen : alpha.length = 2 ^ e)
    (u : Word) : drawSymbol v alpha u = (alpha.getD ((kthDraw v u 1).toNat % 2 ^ e) 0, kthState u 1) := by
  have hspan : spanOf 0 ((alpha.length : Int) - 1) = 2 ^ e := by
    rw [spanOf_indices (hlen ▸ Nat.pow_lt_pow_right (by decide) he), hlen]
  rw [drawSymbol, sampleInt_of_limit v 0 _ u hspan (by positivity) (limitOf_two_pow he.le), Int.zero_add,
    Int.toNat_natCast]

/-- One draw for each symbol (R238). -/
theorem drawSymbols_two_pow_state (v : MixerVariant) {alpha : List Byte} {e : Nat} (he : e < 32)
    (hlen : alpha.length = 2 ^ e) (n : Nat) (u : Word) : (drawSymbols v alpha n u).2 = kthState u n := by
  rw [drawSymbols, repeatDraw_one_draw_each (drawSymbol v alpha) _ (drawSymbol_two_pow v he hlen)]

/-! ### The draws of a command -/

/-- A command's answer commits a result after `n` draws, or fails (R206, R238). -/
def MakesDraws (n : Nat) (s : State) (r : Result) : Prop :=
  (∃ res bytes, r = .next (committed s (kthState s.rng n) res bytes)) ∨ ∃ c, r = .next (failed s c)

/-- A result committed with `STATE` as it was takes no draw. -/
theorem makesDraws_zero {s : State} {r : Result} {res : DWord} {bytes : List Byte}
    (h : r = .next (committed s s.rng res bytes)) : MakesDraws 0 s r :=
  .inl ⟨res, bytes, by rw [h, kthState_zero]⟩

/-- Only a success moves `STATE`, by its draws. -/
theorem MakesDraws.rng {n : Nat} {s : State} {r : Result} (h : MakesDraws n s r) :
    ∃ t, r = .next t ∧ t.rng = if t.status.err then s.rng else kthState s.rng n := by
  obtain ⟨res, bytes, hr⟩ | ⟨c, hr⟩ := h
  · exact ⟨_, hr, rfl⟩
  · exact ⟨_, hr, rfl⟩

/-- A command that checks host digits draws nothing (R184, R185). -/
theorem checkAnswer_makesDraws (check : List Nat → Nat) (n : Nat) (s : State) :
    MakesDraws 0 s (checkAnswer check n s) := by
  rw [checkAnswer]
  split_ifs
  · exact makesDraws_zero rfl
  · exact .inr ⟨_, rfl⟩

/-- NANOID takes one draw for each symbol, or its length is out of range (R157, R203). -/
theorem exec_nanoid_makesDraws (len : Nat) (s : State) : MakesDraws (nanoidLen len) s (exec (.nanoid len) s) := by
  obtain hle | hlt := le_or_gt len 64
  · rw [exec_nanoid_of_le s hle, drawSymbols_nano]
    exact .inl ⟨_, _, rfl⟩
  · exact .inr ⟨_, exec_nanoid_of_lt s (lt_nanoidLen_iff.mpr hlt)⟩

/-- Every command whose number of draws is fixed makes that many, or fails (R238). -/
theorem exec_makesDraws {i : Instr} {n : Nat} (h : i.fixedDraws = some n) (s : State) : MakesDraws n s (exec i s) := by
  cases i <;> cases h
  case nextU32 => exact .inl ⟨_, _, exec_nextU32 s⟩
  case nextF64 => exact .inl ⟨_, _, exec_nextF64 s⟩
  case intBig =>
    obtain hle | hlt := le_or_gt s.opa.toInt s.opb.toInt
    · exact .inl ⟨_, _, exec_intBig_of_le hle⟩
    · exact .inr ⟨_, exec_intBig_of_lt hlt⟩
  case drawBytes =>
    obtain hle | hlt := le_or_gt n 64
    · exact .inl ⟨_, _, exec_drawBytes_of_le s hle⟩
    · exact .inr ⟨_, exec_drawBytes_of_lt s hlt⟩
  case uuid4Gen => exact .inl ⟨_, _, exec_uuid4Gen s⟩
  case uuid4Enc => exact makesDraws_zero (exec_uuid4Enc s)
  case ulidGen => exact .inl ⟨_, _, exec_ulidGen s⟩
  case ulidGenTs => exact .inl ⟨_, _, exec_ulidGenTs s⟩
  case ulidEnc => exact makesDraws_zero (exec_ulidEnc s)
  case suuidGen => exact .inl ⟨_, _, exec_suuidGen s⟩
  case b58Enc len =>
    obtain hle | hlt := le_or_gt len 32
    · exact makesDraws_zero (exec_b58Enc_of_le s hle)
    · exact .inr ⟨_, exec_b58Enc_of_lt s hlt⟩
  case nanoid len => exact exec_nanoid_makesDraws len s
  case objidGen => exact .inl ⟨_, _, exec_objidGen s⟩
  case objidGenTs => exact .inl ⟨_, _, exec_objidGenTs s⟩
  case objidEnc => exact makesDraws_zero (exec_objidEnc s)
  case upcChk => exact exec_upcChk s ▸ checkAnswer_makesDraws upcCheck 11 s
  case eanChk => exact exec_eanChk s ▸ checkAnswer_makesDraws eanCheck 12 s

end Sys2Proof.Machine

open Sys2Proof Sys2Proof.Machine

/-- Settles O57: each command commits after its draws or fails, and a span that is a power of two rejects no draw. -/
theorem commandsMakeTheirDraws : Obligations.CommandsMakeTheirDraws := by
  refine ⟨fun i n hn s => (exec_makesDraws hn s).rng, fun s len e hlen he => ?_⟩
  have halen : 2 ^ e ≤ 64 := Nat.pow_le_pow_right (by decide) he
  exact ⟨_, exec_nanoidCa_of_le s hlen Nat.one_le_two_pow halen,
    drawSymbols_two_pow_state _ (by omega) (length_inBytes s _) _ _⟩
end

section
/-! PROOFS of the family `70_reset_and_hazards`: what reset leaves in every register (spec/70_reset_and_hazards.md R230). -/

namespace Sys2Proof.Machine

/-- Every word of a zero buffer is 0 (R53). -/
theorem bufWord_replicate_zero (k : Nat) : bufWord (Vector.replicate 64 0) k = 0 := by
  have hbyte : ∀ i, bufByte (Vector.replicate 64 0) i = 0 := fun i => by
    by_cases hi : i < 64 <;> simp [bufByte, hi]
  simp only [bufWord, hbyte]
  rfl

/-- Every word of the window but `STATE` reads 0 after reset: each shows a part of a register that is 0 (R51, R230). -/
theorem memRead_resetWith (p : Params) {o : Nat} (hne : o ≠ 0x008) : memRead (State.resetWith p) o = 0 := by
  have hstatus : Status.reset.word = 0 := by decide
  have houtlen : (0 : Byte).setWidth 32 = 0 := by decide
  have hlow : (0 : DWord).extractLsb' 0 32 = 0 := by decide
  have hhigh : (0 : DWord).extractLsb' 32 32 = 0 := by decide
  simp only [memRead, State.resetWith, if_neg hne, hstatus, houtlen, hlow, hhigh, bufWord_replicate_zero, ite_self]

/-- A step that takes a reset event (R230). -/
theorem step_reset {s : State} {rest : List HostEvent} (hp : s.pending = .reset :: rest) :
    step s = hostReset { s with pending := rest } := by
  simp only [step, hostStep, hp, hostEvent]

end Sys2Proof.Machine

open Sys2Proof Sys2Proof.Machine

/-- Settles O52: a reset event takes every register from the reset state. -/
theorem resetSetsEveryRegister : Obligations.ResetSetsEveryRegister :=
  ⟨fun p => ⟨rfl, rfl, fun _ _ _ => memRead_resetWith p⟩, rfl,
    fun _ _ hp => ⟨_, step_reset hp, by simp [SameBlock, State.resetWith], rfl⟩⟩
end
